-- ==== Sys2Proof/Word.lean ====
section
/-! DEFINITION. The word type and the widths the spec fixes (00_scope.md R7, R9). -/

namespace Sys2Proof

/-- "A `Word` is an unsigned 32-bit value": a register, the pc, a memory word, an instruction (R9). -/
abbrev Word := BitVec 32

/-- A 5-bit register index, 0 to 31 (R7, R20). -/
abbrev RegIndex := BitVec 5

/-- A 5-bit shift amount, 0 to 31 (30_encoding.md R64). -/
abbrev Shamt := BitVec 5

/-- A 6-bit opcode or function code (30_encoding.md R64). -/
abbrev Code := BitVec 6

/-- The link register, the one register index the document fixes (R7, 10_state.md R24). -/
abbrev linkReg : RegIndex := 31

end Sys2Proof
end

