-- ==== Sys2Proof/Config.lean ====
section
/-! DEFINITION. The implementation parameters of 00_scope.md R8 and the constraints on them (R71, R195). -/

namespace Sys2Proof

/-- The numeric opcode and function-code constants (30_encoding.md R70). The document gives names only, so they are
parameters (92_eei_decisions.md D2). Opcode 0 for the RegisterRegister format is the document's own and no parameter. -/
structure Codes where
  fnSll : Code
  fnSrl : Code
  fnJr : Code
  fnAddu : Code
  fnSubu : Code
  fnAnd : Code
  fnOr : Code
  fnSlt : Code
  opJ : Code
  opJal : Code
  opBeq : Code
  opBne : Code
  opAddiu : Code
  opAndi : Code
  opOri : Code
  opLui : Code
  opLw : Code
  opSw : Code
  deriving DecidableEq, Repr

/-- The eight legal function codes of the RegisterRegister format (R70). -/
def Codes.functs (c : Codes) : List Code :=
  [c.fnSll, c.fnSrl, c.fnJr, c.fnAddu, c.fnSubu, c.fnAnd, c.fnOr, c.fnSlt]

/-- The eight legal opcodes of the RegisterImmediate format (R70). -/
def Codes.riOpcodes (c : Codes) : List Code :=
  [c.opBeq, c.opBne, c.opAddiu, c.opAndi, c.opOri, c.opLui, c.opLw, c.opSw]

/-- What the document requires of the constants whatever their values are: R71 (a) to (d). -/
abbrev Codes.Admissible (c : Codes) : Prop :=
  c.functs.Nodup ∧ c.riOpcodes.Nodup ∧ (∀ o ∈ c.riOpcodes, o ≠ 0 ∧ o ≠ 2 ∧ o ≠ 3 ∧ o ≠ 0x3F) ∧
    ((c.opJ = 2 ∧ c.opJal = 3) ∨ (c.opJ = 3 ∧ c.opJal = 2))

/-- The values of R70, the MIPS32 ones. DESIGN CHOICE of the spec (D2), log 4; unsafe. -/
def Codes.mips32 : Codes where
  fnSll := 0x00
  fnSrl := 0x02
  fnJr := 0x08
  fnAddu := 0x21
  fnSubu := 0x23
  fnAnd := 0x24
  fnOr := 0x25
  fnSlt := 0x2A
  opJ := 0x02
  opJal := 0x03
  opBeq := 0x04
  opBne := 0x05
  opAddiu := 0x09
  opAndi := 0x0C
  opOri := 0x0D
  opLui := 0x0F
  opLw := 0x23
  opSw := 0x2B

/-- `MEM_STAGE`: the decided data-memory stage, or none attached (20_memory.md R55). -/
inductive MemStage where
  /-- ordinary random-access memory (R150, R151); the default -/
  | ram
  /-- no memory stage attached (R55) -/
  | stub
  deriving DecidableEq, Repr

/-- The parameters of R8. `N_WORDS` is derived: `Config.nWords`. -/
structure Config where
  /-- `TEXT_BASE`, the load base -/
  textBase : Word
  /-- `MAX_INSTR_WORDS`, open -/
  maxInstrWords : Nat
  /-- `MAX_DATA_WORDS`, open -/
  maxDataWords : Nat
  /-- `OP_*`, `FN_*` -/
  codes : Codes
  /-- `ZERO_REG_HARDWIRED` (10_state.md R23) -/
  zeroRegHardwired : Bool
  /-- `MEM_STAGE` -/
  memStage : MemStage
  /-- `REG_RESET` -/
  regReset : Vector Word 32
  /-- `MEM_FILL` -/
  memFill : Word
  deriving DecidableEq, Repr

/-- `N_WORDS = MAX_INSTR_WORDS + MAX_DATA_WORDS` (R8, 10_state.md R31). -/
def Config.nWords (c : Config) : Nat := c.maxInstrWords + c.maxDataWords

/-- The constraints the environment must respect for the machine to be well formed (R8, 70_reset_and_hazards.md R195) and
those on the codes (R71). R195's two other constraints concern what a program can do and are hypotheses of their own:
`Config.JumpsReach`, `Config.Loadable`. -/
abbrev Config.WF (c : Config) : Prop :=
  c.textBase.toNat % 4 = 0 ∧ c.textBase.toNat + 4 * c.nWords ≤ 2 ^ 32 ∧ c.codes.Admissible

/-- "for `j` and `jal` to be able to reach code, the code must lie below `0x10000000`": the first `len` words of the array,
`len` being the length of the code (R195, 43_control_transfer.md R142). -/
abbrev Config.JumpsReach (c : Config) (len : Nat) : Prop := c.textBase.toNat + 4 * len ≤ 0x10000000

/-- "`MAX_INSTR_WORDS >= 1` for any instruction to be loadable" (R195). -/
abbrev Config.Loadable (c : Config) : Prop := 1 ≤ c.maxInstrWords

/-- The defaults of R8. The two capacities have no default in the spec; 16 and 16 are the sizes of its test vectors.
DESIGN CHOICE, log 2; unsafe where a claim rests on the numbers. -/
def Config.default : Config where
  textBase := 0x00400000
  maxInstrWords := 16
  maxDataWords := 16
  codes := Codes.mips32
  zeroRegHardwired := false
  memStage := .ram
  regReset := Vector.replicate 32 0
  memFill := 0

end Sys2Proof
end

