-- ==== Sys2Proof/Syntax.lean ====
section
/-! DEFINITION. The instructions: one constructor per row of spec/opcode_table.json, with exactly the fields that a
DecodedInstruction of its format holds (30_encoding.md R69). -/

namespace Sys2Proof

/-- The three instruction formats (30_encoding.md R63). -/
inductive Format where
  /-- RegisterRegister -/
  | rr
  /-- RegisterImmediate -/
  | ri
  /-- Jump -/
  | j
  deriving DecidableEq, Repr

/-- The 18 legal instructions (R1, R70). RegisterRegister ones carry `rs rt rd shamt`, RegisterImmediate ones `rs rt`
and the 32-bit sign-extended immediate, Jump ones the 32-bit target address (R69). A field the instruction does not use
is carried too, unchecked and unread (R75), so that re-encoding is bit for bit (R74). -/
inductive Instr where
  | sll (rs rt rd : RegIndex) (shamt : Shamt)
  | srl (rs rt rd : RegIndex) (shamt : Shamt)
  | jr (rs rt rd : RegIndex) (shamt : Shamt)
  | addu (rs rt rd : RegIndex) (shamt : Shamt)
  | subu (rs rt rd : RegIndex) (shamt : Shamt)
  | and (rs rt rd : RegIndex) (shamt : Shamt)
  | or (rs rt rd : RegIndex) (shamt : Shamt)
  | slt (rs rt rd : RegIndex) (shamt : Shamt)
  | j (jtarget : Word)
  | jal (jtarget : Word)
  | beq (rs rt : RegIndex) (imm32 : Word)
  | bne (rs rt : RegIndex) (imm32 : Word)
  | addiu (rs rt : RegIndex) (imm32 : Word)
  | andi (rs rt : RegIndex) (imm32 : Word)
  | ori (rs rt : RegIndex) (imm32 : Word)
  | lui (rs rt : RegIndex) (imm32 : Word)
  | lw (rs rt : RegIndex) (imm32 : Word)
  | sw (rs rt : RegIndex) (imm32 : Word)
  deriving DecidableEq, Repr

/-- The format tag of a DecodedInstruction (R69). -/
def Instr.format : Instr → Format
  | .sll .. | .srl .. | .jr .. | .addu .. | .subu .. | .and .. | .or .. | .slt .. => .rr
  | .j .. | .jal .. => .j
  | .beq .. | .bne .. | .addiu .. | .andi .. | .ori .. | .lui .. | .lw .. | .sw .. => .ri

end Sys2Proof
end

