-- ==== Sys2Proof/WellFormed.lean ====
section
/-! DEFINITION. Which terms of `Instr` a decoder can produce: the immediate is the sign extension of 16 bits, the jump
target a 26-bit field shifted left by 2 (30_encoding.md R67, R69). -/

namespace Sys2Proof

/-- The 32 bits are the sign extension of their low 16 (R61, R67). -/
abbrev SignExtended16 (v : Word) : Prop := v = (v.setWidth 16).signExtend 32

/-- The 32 bits are a 26-bit field shifted left by 2: bits 31:28 and 1:0 are zero (R67). -/
abbrev ShiftedField26 (v : Word) : Prop := v.toNat < 2 ^ 28 ∧ v.toNat % 4 = 0

/-- "a well-formed DecodedInstruction always has format-consistent fields populated" (R69), as a check that runs. -/
def Instr.wellFormed : Instr → Bool
  | .sll .. | .srl .. | .jr .. | .addu .. | .subu .. | .and .. | .or .. | .slt .. => true
  | .j t | .jal t => decide (ShiftedField26 t)
  | .beq _ _ v | .bne _ _ v | .addiu _ _ v | .andi _ _ v | .ori _ _ v | .lui _ _ v | .lw _ _ v | .sw _ _ v =>
    decide (SignExtended16 v)

/-- The check as a proposition. -/
abbrev Instr.WellFormed (i : Instr) : Prop := i.wellFormed = true

end Sys2Proof
end

