-- ==== Sys2Proof/Decode.lean ====
section
/-! DEFINITION. The bit-field extractor, the decoder DEC and the encoders (30_encoding.md R60 to R82). -/

namespace Sys2Proof

/-- `extract(word, high, low)`, the `w[high:low]` of the spec (R60, R9). -/
abbrev extract (w : Word) (high low : Nat) : BitVec (high - low + 1) := w.extractLsb high low

/-- `sext_32` of a 16-bit field (R61). It has no flag: it always sign-extends (91_not_in_source.md N7). -/
def sext32 (f : BitVec 16) : Word := f.signExtend 32

/-- `zext_32(addr26) << 2`: the jump target, no pc bits (R67). -/
def jumpField (f : BitVec 26) : Word := (f.setWidth 32) <<< 2

/-- The format, "determined solely by the opcode field" (R63). -/
def formatOf (op : Code) : Format :=
  if op = 0 then .rr else if op = 2 ∨ op = 3 then .j else .ri

/-- Why a word is no instruction: the document's `DecodeError::IllegalInstruction` (R68, R76). -/
inductive DecodeError where
  /-- the opcode, or under opcode 0 the function code, is outside the legal set -/
  | illegalInstruction
  deriving DecidableEq, Repr

/-- What DEC answers: one of the 18 instructions, or the named rejection (R68, R78). -/
inductive Decoded where
  | instr (i : Instr)
  | error (e : DecodeError)
  deriving DecidableEq, Repr

/-- RegisterRegister: dispatch by function code alone, `word[5:0]` (R68, R73). -/
def decodeRR (c : Codes) (w : Word) : Decoded :=
  let rs := extract w 25 21
  let rt := extract w 20 16
  let rd := extract w 15 11
  let shamt := extract w 10 6
  let funct := extract w 5 0
  if funct = c.fnSll then .instr (.sll rs rt rd shamt)
  else if funct = c.fnSrl then .instr (.srl rs rt rd shamt)
  else if funct = c.fnJr then .instr (.jr rs rt rd shamt)
  else if funct = c.fnAddu then .instr (.addu rs rt rd shamt)
  else if funct = c.fnSubu then .instr (.subu rs rt rd shamt)
  else if funct = c.fnAnd then .instr (.and rs rt rd shamt)
  else if funct = c.fnOr then .instr (.or rs rt rd shamt)
  else if funct = c.fnSlt then .instr (.slt rs rt rd shamt)
  else .error .illegalInstruction

/-- Jump: which of the two opcodes it is (R68, R70). -/
def decodeJ (c : Codes) (w : Word) : Decoded :=
  let op := extract w 31 26
  let jtarget := jumpField (extract w 25 0)
  if op = c.opJ then .instr (.j jtarget)
  else if op = c.opJal then .instr (.jal jtarget)
  else .error .illegalInstruction

/-- RegisterImmediate: dispatch by opcode alone (R68, R72). -/
def decodeRI (c : Codes) (w : Word) : Decoded :=
  let op := extract w 31 26
  let rs := extract w 25 21
  let rt := extract w 20 16
  let imm32 := sext32 (extract w 15 0)
  if op = c.opBeq then .instr (.beq rs rt imm32)
  else if op = c.opBne then .instr (.bne rs rt imm32)
  else if op = c.opAddiu then .instr (.addiu rs rt imm32)
  else if op = c.opAndi then .instr (.andi rs rt imm32)
  else if op = c.opOri then .instr (.ori rs rt imm32)
  else if op = c.opLui then .instr (.lui rs rt imm32)
  else if op = c.opLw then .instr (.lw rs rt imm32)
  else if op = c.opSw then .instr (.sw rs rt imm32)
  else .error .illegalInstruction

/-- `decode(word)`, total over all 32-bit words (R68). -/
def decodeWith (c : Codes) (w : Word) : Decoded :=
  match formatOf (extract w 31 26) with
  | .rr => decodeRR c w
  | .j => decodeJ c w
  | .ri => decodeRI c w

/-- The decoder with the constants of R70. -/
def decode (w : Word) : Decoded := decodeWith Codes.mips32 w

/-- `encRR`: the six fields of R64, the opcode 0 (R82, R74). -/
def encRR (funct : Code) (rs rt rd : RegIndex) (shamt : Shamt) : Word :=
  (0 : Code) ++ rs ++ rt ++ rd ++ shamt ++ funct

/-- `encRI`: the low 16 bits of the immediate enter the word (R82, R65, R74). -/
def encRI (op : Code) (rs rt : RegIndex) (imm32 : Word) : Word :=
  op ++ rs ++ rt ++ extract imm32 15 0

/-- `encJ`: bits 27:2 of the target enter the word (R82, R66, R74). -/
def encJ (op : Code) (jtarget : Word) : Word :=
  op ++ extract jtarget 27 2

/-- The word of an instruction (R82 with the constants as parameters). -/
def encodeWith (c : Codes) : Instr → Word
  | .sll rs rt rd shamt => encRR c.fnSll rs rt rd shamt
  | .srl rs rt rd shamt => encRR c.fnSrl rs rt rd shamt
  | .jr rs rt rd shamt => encRR c.fnJr rs rt rd shamt
  | .addu rs rt rd shamt => encRR c.fnAddu rs rt rd shamt
  | .subu rs rt rd shamt => encRR c.fnSubu rs rt rd shamt
  | .and rs rt rd shamt => encRR c.fnAnd rs rt rd shamt
  | .or rs rt rd shamt => encRR c.fnOr rs rt rd shamt
  | .slt rs rt rd shamt => encRR c.fnSlt rs rt rd shamt
  | .j t => encJ c.opJ t
  | .jal t => encJ c.opJal t
  | .beq rs rt v => encRI c.opBeq rs rt v
  | .bne rs rt v => encRI c.opBne rs rt v
  | .addiu rs rt v => encRI c.opAddiu rs rt v
  | .andi rs rt v => encRI c.opAndi rs rt v
  | .ori rs rt v => encRI c.opOri rs rt v
  | .lui rs rt v => encRI c.opLui rs rt v
  | .lw rs rt v => encRI c.opLw rs rt v
  | .sw rs rt v => encRI c.opSw rs rt v

/-- The encoder with the constants of R70. -/
def encode (i : Instr) : Word := encodeWith Codes.mips32 i

/-- One row of the opcode table: a word `w` is selected when `w &&& mask = pattern` (R74). -/
structure TableRow where
  mask : Word
  pattern : Word
  deriving DecidableEq, Repr

/-- Each instruction's row of spec/opcode_table.json: its "mask" and "match" (R74). -/
def Instr.tableRow : Instr → TableRow
  | .sll .. => ⟨0xFC00003F, 0x00000000⟩
  | .srl .. => ⟨0xFC00003F, 0x00000002⟩
  | .jr .. => ⟨0xFC00003F, 0x00000008⟩
  | .addu .. => ⟨0xFC00003F, 0x00000021⟩
  | .subu .. => ⟨0xFC00003F, 0x00000023⟩
  | .and .. => ⟨0xFC00003F, 0x00000024⟩
  | .or .. => ⟨0xFC00003F, 0x00000025⟩
  | .slt .. => ⟨0xFC00003F, 0x0000002A⟩
  | .j .. => ⟨0xFC000000, 0x08000000⟩
  | .jal .. => ⟨0xFC000000, 0x0C000000⟩
  | .beq .. => ⟨0xFC000000, 0x10000000⟩
  | .bne .. => ⟨0xFC000000, 0x14000000⟩
  | .addiu .. => ⟨0xFC000000, 0x24000000⟩
  | .andi .. => ⟨0xFC000000, 0x30000000⟩
  | .ori .. => ⟨0xFC000000, 0x34000000⟩
  | .lui .. => ⟨0xFC000000, 0x3C000000⟩
  | .lw .. => ⟨0xFC000000, 0x8C000000⟩
  | .sw .. => ⟨0xFC000000, 0xAC000000⟩

/-- The word selected by a table row (R74). -/
def TableRow.Selects (r : TableRow) (w : Word) : Prop := w &&& r.mask = r.pattern

/-- The instruction the decoder reads from the `nbits` low bits of `w`; bits above `nbits` are 0. An instruction is one
32-bit word and the decoder sees it as a number, so no byte order enters (R62, 20_memory.md R49). -/
def decodeTableWord (nbits w : Nat) : Option Instr :=
  match decode (BitVec.ofNat 32 (w % 2 ^ nbits)) with
  | .instr i => some i
  | .error _ => none

end Sys2Proof
end

