-- ==== Sys2Proof/Machine/State.lean ====
section
/-! DEFINITION. The state of the machine and its reset (10_state.md R20 to R32). -/

namespace Sys2Proof.Machine

/-- Why the machine is halted (10_state.md R27, 60_exceptions.md R160). -/
inductive HaltReason where
  /-- decode of a fetched word fails (R161) -/
  | illegalInstruction
  /-- a fetch or data address is outside the array (R162) -/
  | memoryOutOfRange
  /-- the program does not fit the instruction segment; raised by the load (R164) -/
  | programTooLarge
  /-- the environment's halt request (R168) -/
  | userRequested
  /-- a fetch or data address is no multiple of 4 (R163, the spec's decision D8) -/
  | addressMisaligned
  deriving DecidableEq, Repr

/-- `run_state` (R27). -/
inductive RunState where
  | running
  | halted (reason : HaltReason)
  deriving DecidableEq, Repr

/-- The ways a step can stop without a next state. -/
inductive Fault where
  /-- Raised by `step` in a halted state, and by nothing else: "Terminal state `Halted`; no further cycles execute once
  halted" (R101, R167). Safe: the hardware has no step there either. The step that enters `Halted` is a next state. -/
  | halted (reason : HaltReason)
  deriving DecidableEq, Repr

/-- The ways the model can decline. -/
inductive Refusal where
  /-- Raised by an arm of `exec` whose instruction has no meaning yet. Safe. No arm raises it now. -/
  | notModelled (mnemonic : String)
  deriving DecidableEq, Repr

/-- The array `mem` (R31) as the list of its entries that differ from `MEM_FILL`: array index and word, indices strictly
rising. A word is the unit of storage; the spec forbids exposing bytes (20_memory.md R49). Log 11. -/
abbrev Memory := List (Nat × Word)

/-- The complete state of the machine (10_state.md), its environment input and its parameters. -/
structure State where
  /-- `x[0..31]` as stored; read through `State.reg` (R20, R22, R23) -/
  regs : Vector Word 32
  /-- `pc` (R26) -/
  pc : Word
  /-- `run_state` (R27) -/
  runState : RunState
  /-- `last_changed` (R28) -/
  lastChanged : Option RegIndex
  /-- `mem` (R31) -/
  mem : Memory
  /-- the model's own: the input `halt_req` at the coming step boundaries, head first, then 0 for ever (R168, D20). Log 8 -/
  haltReq : List Bool
  /-- the model's own: the parameters, which no step changes (00_scope.md R8). Log 1 -/
  cfg : Config
  deriving DecidableEq, Repr

/-- Reset with the default parameters and the empty program, which R192 allows (R32, R190). The spec gives `pc` and
`run_state`; the registers, `last_changed` and memory are its decision D6 (log 7), the capacities log 2, the inputs log 8. -/
def State.reset : State where
  regs := Config.default.regReset
  pc := Config.default.textBase
  runState := .running
  lastChanged := none
  mem := []
  haltReq := []
  cfg := Config.default

end Sys2Proof.Machine
end

