-- ==== Sys2Proof/Machine/Ops.lean ====
section
/-! DEFINITION. The shared operations over memory, registers and the run state: the address checks and the memory
primitives (20_memory.md), register read and write (10_state.md R22, R23; 40_datapath.md R99, R100), entering a halt
(60_exceptions.md R165), fetch, load and inspection. -/

namespace Sys2Proof.Machine

/-! ### Addresses -/

/-- `a[1:0] = 0` (R47). -/
def aligned (a : Word) : Bool := extract a 1 0 == 0

/-- `InRange(a)`: at or above the base and within the array; the subtraction never wraps into range (R43, D10). -/
def inRange (c : Config) (a : Word) : Bool :=
  c.textBase.toNat ≤ a.toNat && (a.toNat - c.textBase.toNat) / 4 < c.nWords

/-- `index(a) = (a - TEXT_BASE) / 4` (R42). -/
def index (c : Config) (a : Word) : Nat := (a.toNat - c.textBase.toNat) / 4

/-- The byte address of `mem[i]` (R31). -/
def addressOf (c : Config) (i : Nat) : Word := c.textBase + BitVec.ofNat 32 (4 * i)

/-- The checks of every access, alignment before range (R46, R47): the reason to halt, or none. -/
def accessFault (c : Config) (a : Word) : Option HaltReason :=
  if aligned a = false then some .addressMisaligned
  else if inRange c a = false then some .memoryOutOfRange
  else none

/-! ### The array -/

/-- `mem[i]`; an index that is not listed holds `MEM_FILL` (R31, R32). -/
def Memory.read (fill : Word) : Memory → Nat → Word
  | [], _ => fill
  | (k, w) :: m, i => if k = i then w else Memory.read fill m i

/-- `mem[i] <- v`, keeping the canonical form: writing `MEM_FILL` removes the entry (R45). -/
def Memory.write (fill : Word) : Memory → Nat → Word → Memory
  | [], i, v => if v = fill then [] else [(i, v)]
  | (k, w) :: m, i, v =>
    if i < k then (if v = fill then (k, w) :: m else (i, v) :: (k, w) :: m)
    else if i = k then (if v = fill then m else (i, v) :: m)
    else (k, w) :: Memory.write fill m i v

/-- The words `P[0], P[1], …` at indices `i, i + 1, …` and `MEM_FILL` everywhere else (R190, R191). -/
def Memory.loadFrom (fill : Word) : Nat → List Word → Memory
  | _, [] => []
  | i, w :: ws => if w = fill then Memory.loadFrom fill (i + 1) ws else (i, w) :: Memory.loadFrom fill (i + 1) ws

/-- The canonical form: indices strictly rising and inside the array, no entry equal to `MEM_FILL`. -/
abbrev Memory.wf (c : Config) (m : Memory) : Prop :=
  m.Pairwise (fun p q => p.1 < q.1) ∧ ∀ p ∈ m, p.1 < c.nWords ∧ p.2 ≠ c.memFill

/-- `mem[i]` of a state. -/
def State.memWord (s : State) (i : Nat) : Word := Memory.read s.cfg.memFill s.mem i

/-- `MemRead(a, 4)` after its checks (R44, R46, R47). -/
def State.loadWord (s : State) (a : Word) : Except HaltReason Word :=
  match accessFault s.cfg a with
  | some r => .error r
  | none => .ok (s.memWord (index s.cfg a))

/-- `MemWrite(a, 4, v)` after its checks: the memory of the next state (R45, R46, R47). -/
def State.storeWord (s : State) (a v : Word) : Except HaltReason Memory :=
  match accessFault s.cfg a with
  | some r => .error r
  | none => .ok (Memory.write s.cfg.memFill s.mem (index s.cfg a) v)

/-! ### Registers and the commit -/

/-- The register is the hard-wired zero: index 0 when `ZERO_REG_HARDWIRED` (R23). -/
abbrev State.IsZeroReg (s : State) (i : RegIndex) : Prop := s.cfg.zeroRegHardwired = true ∧ i = 0

/-- `x[i]`: the value register `i` held when the step began; 0 for the hard-wired zero (R22, R23). -/
def State.reg (s : State) (i : RegIndex) : Word :=
  if s.IsZeroReg i then 0 else s.regs[i.toNat]

/-- Commit of a step with destination `d`: `x[d] <- v`, overwriting, `last_changed <- d`, `pc <- npc`; for the
hard-wired zero no register is written and `last_changed <- none` (R100, R104, R99). `run_state` stays. -/
def State.commitReg (s : State) (d : RegIndex) (v npc : Word) : State :=
  if s.IsZeroReg d then { s with lastChanged := none, pc := npc }
  else { s with regs := s.regs.set d.toNat v, lastChanged := some d, pc := npc }

/-- Commit of a step without destination: `last_changed <- none`, `pc <- npc` (R104). -/
def State.commitNone (s : State) (npc : Word) : State :=
  { s with lastChanged := none, pc := npc }

/-- The memory part of a commit: `mem` replaced by the memory a store gave (R104). -/
def State.setMem (s : State) (m : Memory) : State := { s with mem := m }

/-! ### Taking an exception -/

/-- `raise Halt(reason)`: `run_state <- Halted(reason)`, nothing is saved and nothing else changes (R165, R103). There
is no return from it (R167), so no operation leaves `Halted`. -/
def State.halt (s : State) (r : HaltReason) : State := { s with runState := .halted r }

/-! ### The halt request -/

/-- `halt_req` as sampled at the start of this step (R168). -/
def State.haltReqNow (s : State) : Bool := s.haltReq.headD false

/-- The input moves on to the next step boundary. -/
def State.sampleHaltReq (s : State) : State := { s with haltReq := s.haltReq.tail }

/-! ### Fetch -/

/-- Fetch and decode, stages 1 to 3 of R102: the instruction at `pc`, or the reason to halt (R48, R161). -/
def State.fetchDecode (s : State) : Except HaltReason Instr :=
  match s.loadWord s.pc with
  | .error r => .error r
  | .ok w =>
    match decodeWith s.cfg.codes w with
    | .error .illegalInstruction => .error .illegalInstruction
    | .instr i => .ok i

/-! ### Reset and load, inspection -/

/-- Reset and load of a program with given parameters (R190, R32); a program that does not fit is rejected whole, and the
machine is `Halted(ProgramTooLarge)` (R192, D19). `haltReq` is the environment's input to the run. -/
def State.load (c : Config) (program : List Word) (haltReq : List Bool) : State where
  regs := c.regReset
  pc := c.textBase
  runState := if program.length ≤ c.maxInstrWords then .running else .halted .programTooLarge
  lastChanged := none
  mem := if program.length ≤ c.maxInstrWords then Memory.loadFrom c.memFill 0 program else []
  haltReq := haltReq
  cfg := c

/-- The capacity limit the core exposes to the loader (R164). -/
def State.capacity (s : State) : Nat := s.cfg.maxInstrWords

/-- What the core exposes to the inspector after each step (R27, R197). -/
structure Inspection where
  pc : Word
  x : Vector Word 32
  lastChanged : Option RegIndex
  runState : RunState
  deriving DecidableEq, Repr

/-- The inspector's read-only view (R27); register 0 reads as an instruction reads it. -/
def State.inspect (s : State) : Inspection where
  pc := s.pc
  x := Vector.ofFn fun k : Fin 32 => s.reg (BitVec.ofNat 5 k.val)
  lastChanged := s.lastChanged
  runState := s.runState

/-- The 3-bit code of `run_state` (R171, the spec's decision D12); no instruction reads it. -/
def RunState.code : RunState → BitVec 3
  | .running => 0
  | .halted .illegalInstruction => 1
  | .halted .memoryOutOfRange => 2
  | .halted .programTooLarge => 3
  | .halted .userRequested => 4
  | .halted .addressMisaligned => 5

/-- `w` placed in the array word that `pc` addresses, where `pc` can be fetched from; for `withFetchWord`. Log 24. -/
def State.placeAtPc (s : State) (w : Word) : State :=
  match s.storeWord s.pc w with
  | .error _ => s
  | .ok m => s.setMem m

/-- The next boundary sees no halt request; later ones are as they were. For `withFetchWord`. Log 24. -/
def State.withoutHaltReqNow (s : State) : State :=
  { s with haltReq := match s.haltReq with
      | true :: rest => false :: rest
      | other => other }

end Sys2Proof.Machine
end

