-- ==== Sys2Proof/Machine/Operands.lean ====
section
/-! DEFINITION. The operand forms (30_encoding.md R67): register, immediate, base plus immediate, and the three next-pc
forms of the resolver (40_datapath.md R95). Sums wrap modulo 2^32 (D10). -/

namespace Sys2Proof.Machine

/-- `add32(pc, 4)`: the sequential next pc and the return address of `jal` (R95, R143). -/
def State.pcPlus4 (s : State) : Word := s.pc + 4

/-- `add32(add32(pc, 4), shl32(imm32, 2))`: the target of a taken branch (R95). -/
def State.branchTarget (s : State) (imm32 : Word) : Word := s.pcPlus4 + imm32 <<< 2

/-- `add32(x[rs], imm32)`: the effective address, the one data addressing mode (44_load_store.md R152). -/
def State.effectiveAddress (s : State) (rs : RegIndex) (imm32 : Word) : Word := s.reg rs + imm32

end Sys2Proof.Machine
end

