-- ==== Sys2Proof/Machine/AluImmediate.lean ====
section
/-! DEFINITION. The register-immediate ALU instructions (42_alu_immediate.md). Each writes `x[rt]` and goes to `pc + 4`;
none raises anything. The immediate is the one sign-extended immediate of the decoder (30_encoding.md R67). -/

namespace Sys2Proof.Machine

/-- R130: `x[rt] <- add32(x[rs], imm32)`. -/
def execAddiu (rs rt : RegIndex) (imm32 : Word) (s : State) : Host.Outcome State Fault Refusal :=
  .next (s.commitReg rt (s.reg rs + imm32) s.pcPlus4)

/-- R131: `x[rt] <- and32(x[rs], imm32)`; the immediate is sign-extended (90_conflicts.md C2). -/
def execAndi (rs rt : RegIndex) (imm32 : Word) (s : State) : Host.Outcome State Fault Refusal :=
  .next (s.commitReg rt (s.reg rs &&& imm32) s.pcPlus4)

/-- R132: `x[rt] <- or32(x[rs], imm32)`; the immediate is sign-extended (90_conflicts.md C2). -/
def execOri (rs rt : RegIndex) (imm32 : Word) (s : State) : Host.Outcome State Fault Refusal :=
  .next (s.commitReg rt (s.reg rs ||| imm32) s.pcPlus4)

/-- R133: `x[rt] <- shl32(imm32, 16)`; `rs` is not read (R75). -/
def execLui (_rs rt : RegIndex) (imm32 : Word) (s : State) : Host.Outcome State Fault Refusal :=
  .next (s.commitReg rt (imm32 <<< 16) s.pcPlus4)

end Sys2Proof.Machine
end

