-- ==== Sys2Proof/Machine/Flags.lean ====
section
/-! DEFINITION. The machine has no flags, condition codes or predicates (10_state.md R29). The two conditions an
instruction forms on a difference are here: zero (`beq`, `bne`) and sign (`slt`). -/

namespace Sys2Proof.Machine

/-- The difference is zero: "zero ⇒ equal" (40_datapath.md R91). -/
def isZero (d : Word) : Bool := d == 0

/-- "< 0" read as bit 31 of the wrapped difference (40_datapath.md R92, the spec's decision D15; log 15). -/
def isNegative (d : Word) : Bool := d[31]

/-- `slt`'s result: 1 or 0 in all 32 bits (41_alu_register.md R126). -/
def setIf (b : Bool) : Word := if b then 1 else 0

end Sys2Proof.Machine
end

