-- ==== Sys2Proof/Machine/AluRegister.lean ====
section
/-! DEFINITION. The register-register ALU instructions (41_alu_register.md). Each writes `x[rd]` and goes to `pc + 4`;
none raises anything. `shamt` of the five that do not shift, and `rs` of the two that do, are not read (R75). -/

namespace Sys2Proof.Machine

/-- R122: `x[rd] <- shl32(x[rt], shamt)`. -/
def execSll (_rs rt rd : RegIndex) (shamt : Shamt) (s : State) : Host.Outcome State Fault Refusal :=
  .next (s.commitReg rd (s.reg rt <<< shamt.toNat) s.pcPlus4)

/-- R123: `x[rd] <- shr32(x[rt], shamt)`, zero fill (90_conflicts.md C1). -/
def execSrl (_rs rt rd : RegIndex) (shamt : Shamt) (s : State) : Host.Outcome State Fault Refusal :=
  .next (s.commitReg rd (s.reg rt >>> shamt.toNat) s.pcPlus4)

/-- R120: `x[rd] <- add32(x[rs], x[rt])`. -/
def execAddu (rs rt rd : RegIndex) (_shamt : Shamt) (s : State) : Host.Outcome State Fault Refusal :=
  .next (s.commitReg rd (s.reg rs + s.reg rt) s.pcPlus4)

/-- R121: `x[rd] <- sub32(x[rs], x[rt])`. -/
def execSubu (rs rt rd : RegIndex) (_shamt : Shamt) (s : State) : Host.Outcome State Fault Refusal :=
  .next (s.commitReg rd (s.reg rs - s.reg rt) s.pcPlus4)

/-- R124: `x[rd] <- and32(x[rs], x[rt])`. -/
def execAnd (rs rt rd : RegIndex) (_shamt : Shamt) (s : State) : Host.Outcome State Fault Refusal :=
  .next (s.commitReg rd (s.reg rs &&& s.reg rt) s.pcPlus4)

/-- R125: `x[rd] <- or32(x[rs], x[rt])`. -/
def execOr (rs rt rd : RegIndex) (_shamt : Shamt) (s : State) : Host.Outcome State Fault Refusal :=
  .next (s.commitReg rd (s.reg rs ||| s.reg rt) s.pcPlus4)

/-- R126: `x[rd] <- 1` if bit 31 of `sub32(x[rs], x[rt])` is set, else 0 (90_conflicts.md C3). -/
def execSlt (rs rt rd : RegIndex) (_shamt : Shamt) (s : State) : Host.Outcome State Fault Refusal :=
  .next (s.commitReg rd (setIf (isNegative (s.reg rs - s.reg rt))) s.pcPlus4)

end Sys2Proof.Machine
end

