-- ==== Sys2Proof/Machine/ControlTransfer.lean ====
section
/-! DEFINITION. The control transfer instructions (43_control_transfer.md). No delay slot; a bad target is found by the
fetch of the next step, not here (40_datapath.md R95, R96). -/

namespace Sys2Proof.Machine

/-- R144: `pc <- x[rs]`, unchecked; `rt`, `rd`, `shamt` are not read (R75). -/
def execJr (rs _rt _rd : RegIndex) (_shamt : Shamt) (s : State) : Host.Outcome State Fault Refusal :=
  .next (s.commitNone (s.reg rs))

/-- R142: `pc <- jtarget`, the shifted field alone. -/
def execJ (jtarget : Word) (s : State) : Host.Outcome State Fault Refusal :=
  .next (s.commitNone jtarget)

/-- R143: `x[31] <- add32(pc, 4)`; `pc <- jtarget`. -/
def execJal (jtarget : Word) (s : State) : Host.Outcome State Fault Refusal :=
  .next (s.commitReg linkReg s.pcPlus4 jtarget)

/-- R140: branch if the difference is zero. -/
def execBeq (rs rt : RegIndex) (imm32 : Word) (s : State) : Host.Outcome State Fault Refusal :=
  .next (s.commitNone (if isZero (s.reg rs - s.reg rt) then s.branchTarget imm32 else s.pcPlus4))

/-- R141: branch if the difference is not zero. -/
def execBne (rs rt : RegIndex) (imm32 : Word) (s : State) : Host.Outcome State Fault Refusal :=
  .next (s.commitNone (if isZero (s.reg rs - s.reg rt) then s.pcPlus4 else s.branchTarget imm32))

end Sys2Proof.Machine
end

