-- ==== Sys2Proof/Machine/LoadStore.lean ====
section
/-! DEFINITION. Load and store (44_load_store.md), with the decided memory stage `ram` and with `stub`
(20_memory.md R55). A failed check is the halt the spec describes: nothing but `run_state` changes (R103). -/

namespace Sys2Proof.Machine

/-- R150: `x[rt] <- MemRead(ea, 4)`; with `stub`, `x[rt] <- ea` and no access (R55). -/
def execLw (rs rt : RegIndex) (imm32 : Word) (s : State) : Host.Outcome State Fault Refusal :=
  let ea := s.effectiveAddress rs imm32
  match s.cfg.memStage with
  | .stub => .next (s.commitReg rt ea s.pcPlus4)
  | .ram =>
    match s.loadWord ea with
    | .error r => .next (s.halt r)
    | .ok v => .next (s.commitReg rt v s.pcPlus4)

/-- R151: `MemWrite(ea, 4, x[rt])`; with `stub`, no access (R55), and `last_changed` becomes none as after
every step without destination (R104; DESIGN CHOICE, log 5). -/
def execSw (rs rt : RegIndex) (imm32 : Word) (s : State) : Host.Outcome State Fault Refusal :=
  match s.cfg.memStage with
  | .stub => .next (s.commitNone s.pcPlus4)
  | .ram =>
    match s.storeWord (s.effectiveAddress rs imm32) (s.reg rt) with
    | .error r => .next (s.halt r)
    | .ok m => .next ((s.commitNone s.pcPlus4).setMem m)

end Sys2Proof.Machine
end

