-- ==== Sys2Proof/Machine/Step.lean ====
section
/-! DEFINITION. One step of the machine (40_datapath.md R101 to R105). -/

namespace Sys2Proof.Machine

/-- `step(S, halt_req)` of R105. In `Halted` there is no step (R101). At a running state: the halt request, then fetch
and decode, then the instruction; a failed stage is the halt R165 describes, a next state. -/
def step (s : State) : Host.Outcome State Fault Refusal :=
  match s.runState with
  | .halted r => .fault (.halted r)
  | .running =>
    let s1 := s.sampleHaltReq
    if s.haltReqNow then .next (s1.halt .userRequested)
    else
      match s1.fetchDecode with
      | .error r => .next (s1.halt r)
      | .ok i => exec i s1

/-- `s` with the `nbits` low bits of `w` as the word that the next step fetches: the word stands in the array where `pc`
points, the machine runs, and the next boundary sees no halt request. Log 12, log 24. -/
def State.withFetchWord (s : State) (nbits w : Nat) : State :=
  { (s.placeAtPc (BitVec.ofNat 32 (w % 2 ^ nbits))).withoutHaltReqNow with runState := .running }

end Sys2Proof.Machine
end

