-- ==== Sys2Proof/Machine/Datapath.lean ====
section
/-! DEFINITION. The datapath of 40_datapath.md as the spec's tables give it, apart from the meanings: ALU (R91), PCR
(R95), WBM (R97 to R99), the data access and the commit (R102, R104), and the signals between them (00_scope.md R6).
"where a per-instruction rule and a table here state the same fact they agree": that `exec` agrees with this file is an
obligation. `step` does not use it. -/

namespace Sys2Proof.Machine.Datapath

/-- The `rs` field, of the formats that have one (R69, R105). -/
def rsField : Instr → Option RegIndex
  | .sll rs .. | .srl rs .. | .jr rs .. | .addu rs .. | .subu rs .. | .and rs .. | .or rs .. | .slt rs .. => some rs
  | .beq rs .. | .bne rs .. | .addiu rs .. | .andi rs .. | .ori rs .. | .lui rs .. | .lw rs .. | .sw rs .. => some rs
  | .j .. | .jal .. => none

/-- The `rt` field, of the formats that have one (R69, R105). -/
def rtField : Instr → Option RegIndex
  | .sll _ rt .. | .srl _ rt .. | .jr _ rt .. | .addu _ rt .. | .subu _ rt .. | .and _ rt .. | .or _ rt ..
  | .slt _ rt .. => some rt
  | .beq _ rt .. | .bne _ rt .. | .addiu _ rt .. | .andi _ rt .. | .ori _ rt .. | .lui _ rt .. | .lw _ rt ..
  | .sw _ rt .. => some rt
  | .j .. | .jal .. => none

/-- A read port of the register file; the 0 of a format without the field is read by nothing (R22, R69). -/
def readPort (s : State) : Option RegIndex → Word
  | some r => s.reg r
  | none => 0

/-- ALU: `execute(instr, registers)` (R90, R91). The 0 of `jr` and `j` is the spec's decision D13, log 20. -/
def alu (i : Instr) (rsVal rtVal pc : Word) : Word :=
  match i with
  | .addu .. => rsVal + rtVal
  | .subu .. => rsVal - rtVal
  | .sll _ _ _ shamt => rtVal <<< shamt.toNat
  | .srl _ _ _ shamt => rtVal >>> shamt.toNat
  | .and .. => rsVal &&& rtVal
  | .or .. => rsVal ||| rtVal
  | .slt .. => setIf (isNegative (rsVal - rtVal))
  | .jr .. => 0
  | .addiu _ _ imm32 => rsVal + imm32
  | .andi _ _ imm32 => rsVal &&& imm32
  | .ori _ _ imm32 => rsVal ||| imm32
  | .lui _ _ imm32 => imm32 <<< 16
  | .beq .. => rsVal - rtVal
  | .bne .. => rsVal - rtVal
  | .lw _ _ imm32 => rsVal + imm32
  | .sw _ _ imm32 => rsVal + imm32
  | .jal .. => pc + 4
  | .j .. => 0

/-- PCR: `next_pc(current_pc, instr, executed_value)` (R95). -/
def pcr (pc : Word) (i : Instr) (rsVal aluResult : Word) : Word :=
  let sequential := pc + 4
  match i with
  | .j jtarget => jtarget
  | .jal jtarget => jtarget
  | .jr .. => rsVal
  | .beq _ _ imm32 => if aluResult = 0 then sequential + imm32 <<< 2 else sequential
  | .bne _ _ imm32 => if aluResult ≠ 0 then sequential + imm32 <<< 2 else sequential
  | .sll .. | .srl .. | .addu .. | .subu .. | .and .. | .or .. | .slt .. => sequential
  | .addiu .. | .andi .. | .ori .. | .lui .. | .lw .. | .sw .. => sequential

/-- WBM: the destination of an instruction (R97). -/
def destination : Instr → Option RegIndex
  | .addu _ _ rd _ | .subu _ _ rd _ | .sll _ _ rd _ | .srl _ _ rd _ | .and _ _ rd _ | .or _ _ rd _
  | .slt _ _ rd _ => some rd
  | .addiu _ rt _ | .andi _ rt _ | .ori _ rt _ | .lui _ rt _ | .lw _ rt _ => some rt
  | .jal .. => some linkReg
  | .beq .. | .bne .. | .sw .. | .jr .. | .j .. => none

/-- The registers an instruction reads, its row of the table of 10_state.md R25. -/
def sources : Instr → List RegIndex
  | .addu rs rt _ _ | .subu rs rt _ _ | .and rs rt _ _ | .or rs rt _ _ | .slt rs rt _ _ => [rs, rt]
  | .sll _ rt _ _ | .srl _ rt _ _ => [rt]
  | .jr rs _ _ _ => [rs]
  | .addiu rs _ _ | .andi rs _ _ | .ori rs _ _ => [rs]
  | .lui .. => []
  | .beq rs rt _ | .bne rs rt _ => [rs, rt]
  | .lw rs _ _ => [rs]
  | .sw rs rt _ => [rs, rt]
  | .j .. | .jal .. => []

/-- WBM with `ZERO_REG_HARDWIRED`: the mux forces `rf_we = 0` for index 0 (R99). `some` is `rf_we = 1`. -/
def writeEnable (c : Config) (i : Instr) : Option RegIndex :=
  match destination i with
  | some d => if c.zeroRegHardwired = true ∧ d = 0 then none else some d
  | none => none

/-- `mem_re`: the instruction is `lw` (R6). -/
def memRe : Instr → Bool
  | .lw .. => true
  | _ => false

/-- `mem_we`: the instruction is `sw` (R6). -/
def memWe : Instr → Bool
  | .sw .. => true
  | _ => false

/-- The signals of one step from register read to writeback (R6). `mem_addr` is `alu_result`. -/
structure Signals where
  rsVal : Word
  rtVal : Word
  aluResult : Word
  nextPc : Word
  rfWaddr : Option RegIndex
  memRe : Bool
  memWe : Bool
  memAddr : Word
  memWdata : Word
  deriving DecidableEq, Repr

/-- Stage 4 of R102: register read, ALU, PCR, and the write enables. The data access exists only with `ram` (R55). -/
def signals (i : Instr) (s : State) : Signals :=
  let rsVal := readPort s (rsField i)
  let rtVal := readPort s (rtField i)
  let aluResult := alu i rsVal rtVal s.pc
  { rsVal := rsVal
    rtVal := rtVal
    aluResult := aluResult
    nextPc := pcr s.pc i rsVal aluResult
    rfWaddr := writeEnable s.cfg i
    memRe := memRe i && decide (s.cfg.memStage = .ram)
    memWe := memWe i && decide (s.cfg.memStage = .ram)
    memAddr := aluResult
    memWdata := rtVal }

/-- Stages 5 and 6 of R102: the reason to halt for the data access, or none. -/
def dataFault (i : Instr) (s : State) : Option HaltReason :=
  let g := signals i s
  if g.memRe || g.memWe then accessFault s.cfg g.memAddr else none

/-- `rf_wdata`: `mem_rdata` for `lw` with `ram`, else `alu_result` (R98). -/
def rfWdata (i : Instr) (s : State) : Word :=
  let g := signals i s
  if g.memRe then s.memWord (index s.cfg g.memAddr) else g.aluResult

/-- Stage 8 of R102: all of the commit together, from the state at the start of the step (R104). -/
def commit (i : Instr) (s : State) : State :=
  let g := signals i s
  { s with
    mem := if g.memWe then Memory.write s.cfg.memFill s.mem (index s.cfg g.memAddr) g.memWdata else s.mem
    regs := match g.rfWaddr with
      | some d => s.regs.set d.toNat (rfWdata i s)
      | none => s.regs
    lastChanged := g.rfWaddr
    pc := g.nextPc }

/-- Stages 4 to 8 of R102 for a decoded instruction (R105). -/
def run (i : Instr) (s : State) : State :=
  match dataFault i s with
  | some r => s.halt r
  | none => commit i s

/-- The first failing stage of R102 at a running state, or none: stage 0, 1, 2, 3, then 5 and 6. -/
def stageFault (s : State) : Option HaltReason :=
  if s.haltReqNow then some .userRequested
  else if extract s.pc 1 0 ≠ 0 then some .addressMisaligned
  else if inRange s.cfg s.pc = false then some .memoryOutOfRange
  else
    match decodeWith s.cfg.codes (s.memWord (index s.cfg s.pc)) with
    | .error _ => some .illegalInstruction
    | .instr i => dataFault i s

end Sys2Proof.Machine.Datapath
end

