-- ==== Sys2Proof/Safety.lean ====
section
/-! DEFINITION. The terms claims use: what a step leaves unchanged, what a register write is, the invariant of the
machine, and what counts as a safe state. -/

namespace Sys2Proof.Machine

/-- Memory reads as before, at every index of the array. -/
def SameMemory (s t : State) : Prop := ∀ i, t.memWord i = s.memWord i

/-- Memory reads as before at every index but `k`. -/
def SameMemoryBut (k : Nat) (s t : State) : Prop := ∀ i, i ≠ k → t.memWord i = s.memWord i

/-- The run state, the environment's inputs and the parameters are as before. -/
def SameControl (s t : State) : Prop := t.runState = s.runState ∧ t.haltReq = s.haltReq ∧ t.cfg = s.cfg

/-- No register is written: the register file is as before and `last_changed` reports none. -/
def WritesNoRegister (s t : State) : Prop := t.regs = s.regs ∧ t.lastChanged = none

/-- Exactly register `d` is written, with `v`, and reported. For the hard-wired zero (the parameter of 10_state.md R23,
off by default) nothing is written and none is reported. -/
def WritesRegister (d : RegIndex) (v : Word) (s t : State) : Prop :=
  if s.IsZeroReg d then WritesNoRegister s t
  else t.reg d = v ∧ (∀ r, r ≠ d → t.reg r = s.reg r) ∧ t.lastChanged = some d

/-- A step that completes in sequence, writing `v` to `d`: nothing else changes. -/
def CompletesWriting (d : RegIndex) (v : Word) (s t : State) : Prop :=
  WritesRegister d v s t ∧ t.pc = BitVec.ofNat 32 (s.pc.toNat + 4) ∧ SameMemory s t ∧ SameControl s t

/-- A step that completes at `npc` and writes no register and no memory. -/
def CompletesAt (npc : Word) (s t : State) : Prop :=
  WritesNoRegister s t ∧ t.pc = npc ∧ SameMemory s t ∧ SameControl s t

/-- The invariant of the machine: legal parameters (70_reset_and_hazards.md R195, 30_encoding.md R71), the array in its
canonical form inside its bounds (10_state.md R31), and a hard-wired zero register that is never written and never
reported (10_state.md R23). -/
structure State.Inv (s : State) : Prop where
  cfg_wf : s.cfg.WF
  mem_wf : Memory.wf s.cfg s.mem
  zero_unwritten : s.cfg.zeroRegHardwired = true → s.regs[0] = s.cfg.regReset[0]
  zero_unreported : s.cfg.zeroRegHardwired = true → s.lastChanged ≠ some 0

/-- A state that no fault of the program has ended: it runs, or only the environment stopped it (60_exceptions.md R160). -/
def State.Safe (s : State) : Prop :=
  s.runState = .running ∨ s.runState = .halted .userRequested

end Sys2Proof.Machine
end

