-- ==== Sys2Proof/Certificates/Slice0/Obligations.lean ====
section
/-! DEFINITION. The statements for the provers. Each docstring names the rule of spec/ it formalises, or the spec's
decision D<n> (spec/92_eei_decisions.md) or log entry it rests on. -/

open Sys2Proof Sys2Proof.Machine

/-! ### Encoding -/

/-- R60: the extractor is the document's shift-and-mask formula, for every range inside the word. -/
def Obligations.ExtractIsShiftAndMask : Prop :=
  ∀ (w : Word) (high low : Nat), low ≤ high → high ≤ 31 →
    (extract w high low).toNat = (w.toNat >>> low) &&& ((1 <<< (high - low + 1)) - 1)

/-- R61: the sign extension as an integer, as a pattern, and the document's three examples. -/
def Obligations.SignExtensionIsFieldMinus65536 : Prop :=
  (∀ f : BitVec 16,
    (sext32 f).toInt = (if f.getLsbD 15 then (f.toNat : Int) - 65536 else f.toNat) ∧
    (sext32 f).toNat = (if f.toNat < 0x8000 then f.toNat else f.toNat + 0xFFFF0000)) ∧
  (sext32 0x8000).toInt = -32768 ∧ (sext32 0x7FFF).toInt = 32767 ∧ (sext32 0xFFFF).toInt = -1

/-- R63: the format of every decoded instruction is determined solely by its opcode field, whatever the constants. -/
def Obligations.FormatIsSelectedByOpcode : Prop :=
  ∀ (c : Codes) (w : Word) (i : Instr), decodeWith c w = .instr i →
    (extract w 31 26 = 0 → i.format = .rr) ∧
    (extract w 31 26 = 2 ∨ extract w 31 26 = 3 → i.format = .j) ∧
    (extract w 31 26 ≠ 0 → extract w 31 26 ≠ 2 → extract w 31 26 ≠ 3 → i.format = .ri)

/-- Decoding an encoded well-formed instruction gives it back, for every admissible choice of the constants (R68, R71,
R82). -/
def Obligations.DecodeOfEncodeIsIdentity : Prop :=
  ∀ (c : Codes) (i : Instr), c.Admissible → i.WellFormed → decodeWith c (encodeWith c i) = .instr i

/-- Re-encoding a decoded word gives back the same 32 bits, unused fields included, and what the decoder gives is
well-formed, for every choice of the constants (the re-encoding laws of R74, and R69). -/
def Obligations.EncodeOfDecodeIsIdentity : Prop :=
  ∀ (c : Codes) (w : Word) (i : Instr), decodeWith c w = .instr i → encodeWith c i = w ∧ i.WellFormed

/-- Match and mask: a word decodes to an instruction of a table row exactly when the row's mask and pattern select it,
and the rows exclude each other (R74; the numbers are the spec's decision D2, log 4). -/
def Obligations.TableRowsSelectTheDecodedInstruction : Prop :=
  (∀ (w : Word) (i : Instr), decode w = .instr i → i.tableRow.Selects w) ∧
  (∀ (w : Word) (j : Instr), j.tableRow.Selects w → ∃ i, decode w = .instr i ∧ i.tableRow = j.tableRow) ∧
  (∀ (w : Word) (i j : Instr), i.tableRow.Selects w → j.tableRow.Selects w → i.tableRow = j.tableRow)

/-- The illegal words are exactly those of the two charts: 56 function codes under opcode 0, and 53 opcodes (R72, R73,
R76; the numbers are the spec's decision D2, log 4). -/
def Obligations.IllegalWordsAreThoseOfTheCharts : Prop :=
  ∀ w : Word, decode w = .error .illegalInstruction ↔
    (extract w 31 26 = 0 ∧ extract w 5 0 ∉ ([0x00, 0x02, 0x08, 0x21, 0x23, 0x24, 0x25, 0x2A] : List Code)) ∨
    extract w 31 26 ∉ ([0x00, 0x02, 0x03, 0x04, 0x05, 0x09, 0x0C, 0x0D, 0x0F, 0x23, 0x2B] : List Code)

/-- A few words, written out from the encodings of the spec, decode to the instruction they stand for (vectors V-dec of
95_test_vectors.md; the numbers are the spec's decision D2, log 4). -/
def Obligations.WrittenOutWordsDecode : Prop :=
  decode 0x00221FE1 = .instr (.addu 1 2 3 31) ∧ decode 0x00021FC2 = .instr (.srl 0 2 3 31) ∧
  decode 0x03E531C8 = .instr (.jr 31 5 6 7) ∧ decode 0x2422FFFF = .instr (.addiu 1 2 0xFFFFFFFF) ∧
  decode 0x3C028000 = .instr (.lui 0 2 0xFFFF8000) ∧ decode 0x1022FFFF = .instr (.beq 1 2 0xFFFFFFFF) ∧
  decode 0x8C22FFFC = .instr (.lw 1 2 0xFFFFFFFC) ∧ decode 0xAC220008 = .instr (.sw 1 2 8) ∧
  decode 0x08100400 = .instr (.j 0x00401000) ∧ decode 0x0C000000 = .instr (.jal 0) ∧
  decode 0x84000000 = .error .illegalInstruction ∧ decode 0x0000002B = .error .illegalInstruction

/-- A field an instruction does not use is not looked at (R75, the spec's inference; decision D22, log 23). -/
def Obligations.UnusedFieldsChangeNothing : Prop :=
  ∀ (s : State) (rs rt rd rs' rt' rd' : RegIndex) (a a' : Shamt) (v : Word),
    exec (.addu rs rt rd a) s = exec (.addu rs rt rd a') s ∧
    exec (.subu rs rt rd a) s = exec (.subu rs rt rd a') s ∧
    exec (.and rs rt rd a) s = exec (.and rs rt rd a') s ∧
    exec (.or rs rt rd a) s = exec (.or rs rt rd a') s ∧
    exec (.slt rs rt rd a) s = exec (.slt rs rt rd a') s ∧
    exec (.sll rs rt rd a) s = exec (.sll rs' rt rd a) s ∧
    exec (.srl rs rt rd a) s = exec (.srl rs' rt rd a) s ∧
    exec (.jr rs rt rd a) s = exec (.jr rs rt' rd' a') s ∧
    exec (.lui rs rt v) s = exec (.lui rs' rt v) s

/-- The three encoders are the shifted fields or-ed together (R82, the spec's inference). -/
def Obligations.EncodersAreShiftedFields : Prop :=
  (∀ (f : Code) (rs rt rd : RegIndex) (a : Shamt), encRR f rs rt rd a =
    rs.setWidth 32 <<< 21 ||| rt.setWidth 32 <<< 16 ||| rd.setWidth 32 <<< 11 ||| a.setWidth 32 <<< 6 |||
      f.setWidth 32) ∧
  (∀ (op : Code) (rs rt : RegIndex) (v : Word), encRI op rs rt v =
    op.setWidth 32 <<< 26 ||| rs.setWidth 32 <<< 21 ||| rt.setWidth 32 <<< 16 ||| BitVec.ofNat 32 (v.toNat % 2 ^ 16)) ∧
  (∀ (op : Code) (t : Word), encJ op t =
    op.setWidth 32 <<< 26 ||| BitVec.ofNat 32 ((t.toNat >>> 2) % 2 ^ 26))

/-- The two words of R79: the zero word is `sll $0,$0,0`, which changes no register value, reports register 0 (none when
it is hard-wired) and goes to `pc + 4`; the all-ones word is illegal (R79, the spec's inference; D2, D5, D18). -/
def Obligations.ZeroWordIsSllAndOnesWordIsIllegal : Prop :=
  decode 0x00000000 = .instr (.sll 0 0 0 0) ∧ decode 0xFFFFFFFF = .error .illegalInstruction ∧
  ∀ s : State, ∃ t, exec (.sll 0 0 0 0) s = .next t ∧ (∀ r, t.reg r = s.reg r) ∧
    t.lastChanged = (if s.cfg.zeroRegHardwired then none else some 0) ∧
    t.pc = BitVec.ofNat 32 (s.pc.toNat + 4) ∧ SameMemory s t ∧ SameControl s t

/-! ### Register-register ALU: completion, result and frame

The encoding clause holds for every admissible choice of the constants: the numeric value of a constant is the spec's
decision D2 and no part of these statements. The clause of `WritesRegister` for a hard-wired register 0 is the parameter
of R23 (the spec's decision D5), off by default. -/

/-- R122. -/
def Obligations.SllShiftsLeftByShamt : Prop :=
  ∀ (s : State) (rs rt rd : RegIndex) (a : Shamt),
    (∀ c : Codes, c.Admissible →
      decodeWith c ((0 : Code) ++ rs ++ rt ++ rd ++ a ++ c.fnSll) = .instr (.sll rs rt rd a)) ∧
    ∃ t, exec (.sll rs rt rd a) s = .next t ∧
      CompletesWriting rd (BitVec.ofNat 32 ((s.reg rt).toNat * 2 ^ a.toNat)) s t

/-- R123: zeros enter at bit 31 (the logical shift is the spec's resolution of conflict C1, its decision D17, log 17). -/
def Obligations.SrlShiftsRightWithZeroFill : Prop :=
  ∀ (s : State) (rs rt rd : RegIndex) (a : Shamt),
    (∀ c : Codes, c.Admissible →
      decodeWith c ((0 : Code) ++ rs ++ rt ++ rd ++ a ++ c.fnSrl) = .instr (.srl rs rt rd a)) ∧
    ∃ t, exec (.srl rs rt rd a) s = .next t ∧
      CompletesWriting rd (BitVec.ofNat 32 ((s.reg rt).toNat / 2 ^ a.toNat)) s t

/-- R120: the sum modulo 2^32, no trap. -/
def Obligations.AdduWritesWrappedSum : Prop :=
  ∀ (s : State) (rs rt rd : RegIndex) (a : Shamt),
    (∀ c : Codes, c.Admissible →
      decodeWith c ((0 : Code) ++ rs ++ rt ++ rd ++ a ++ c.fnAddu) = .instr (.addu rs rt rd a)) ∧
    ∃ t, exec (.addu rs rt rd a) s = .next t ∧
      CompletesWriting rd (BitVec.ofNat 32 ((s.reg rs).toNat + (s.reg rt).toNat)) s t

/-- R121: the difference modulo 2^32, no trap. -/
def Obligations.SubuWritesWrappedDifference : Prop :=
  ∀ (s : State) (rs rt rd : RegIndex) (a : Shamt),
    (∀ c : Codes, c.Admissible →
      decodeWith c ((0 : Code) ++ rs ++ rt ++ rd ++ a ++ c.fnSubu) = .instr (.subu rs rt rd a)) ∧
    ∃ t, exec (.subu rs rt rd a) s = .next t ∧
      CompletesWriting rd (BitVec.ofInt 32 ((s.reg rs).toNat - (s.reg rt).toNat)) s t

/-- R124, bit by bit. -/
def Obligations.AndWritesBitwiseAnd : Prop :=
  ∀ (s : State) (rs rt rd : RegIndex) (a : Shamt),
    (∀ c : Codes, c.Admissible →
      decodeWith c ((0 : Code) ++ rs ++ rt ++ rd ++ a ++ c.fnAnd) = .instr (.and rs rt rd a)) ∧
    ∃ t v, exec (.and rs rt rd a) s = .next t ∧ CompletesWriting rd v s t ∧
      ∀ k < 32, v.getLsbD k = ((s.reg rs).getLsbD k && (s.reg rt).getLsbD k)

/-- R125, bit by bit. -/
def Obligations.OrWritesBitwiseOr : Prop :=
  ∀ (s : State) (rs rt rd : RegIndex) (a : Shamt),
    (∀ c : Codes, c.Admissible →
      decodeWith c ((0 : Code) ++ rs ++ rt ++ rd ++ a ++ c.fnOr) = .instr (.or rs rt rd a)) ∧
    ∃ t v, exec (.or rs rt rd a) s = .next t ∧ CompletesWriting rd v s t ∧
      ∀ k < 32, v.getLsbD k = ((s.reg rs).getLsbD k || (s.reg rt).getLsbD k)

/-- R126 with its corner cases: the signed comparison while the true difference fits in 32 bits, and the opposite of it
when the difference overflows (the sign of the wrapped difference is the spec's decision D15, log 15). -/
def Obligations.SltIsSignedCompareOrItsOppositeOnOverflow : Prop :=
  ∀ (s : State) (rs rt rd : RegIndex) (a : Shamt),
    (∀ c : Codes, c.Admissible →
      decodeWith c ((0 : Code) ++ rs ++ rt ++ rd ++ a ++ c.fnSlt) = .instr (.slt rs rt rd a)) ∧
    ∃ t v, exec (.slt rs rt rd a) s = .next t ∧ CompletesWriting rd v s t ∧
      v = (if (s.reg rs - s.reg rt).getLsbD 31 then 1 else 0) ∧
      (-2 ^ 31 ≤ (s.reg rs).toInt - (s.reg rt).toInt → (s.reg rs).toInt - (s.reg rt).toInt ≤ 2 ^ 31 - 1 →
        (v = 1 ↔ (s.reg rs).toInt < (s.reg rt).toInt)) ∧
      ((s.reg rs).toInt - (s.reg rt).toInt < -2 ^ 31 ∨ 2 ^ 31 - 1 < (s.reg rs).toInt - (s.reg rt).toInt →
        (v = 1 ↔ ¬ (s.reg rs).toInt < (s.reg rt).toInt))

/-! ### Register-immediate ALU -/

/-- R130: the sum with the signed field modulo 2^32, no trap. -/
def Obligations.AddiuAddsSignedField : Prop :=
  ∀ (s : State) (rs rt : RegIndex) (f : BitVec 16),
    (∀ c : Codes, c.Admissible → decodeWith c (c.opAddiu ++ rs ++ rt ++ f) = .instr (.addiu rs rt (sext32 f))) ∧
    ∃ t, exec (.addiu rs rt (sext32 f)) s = .next t ∧
      CompletesWriting rt (BitVec.ofInt 32 ((s.reg rs).toNat + f.toInt)) s t

/-- R131: the upper half passes through for a field with bit 15 set, and is cleared otherwise (the sign-extended
immediate is the spec's decision D16, log 16). -/
def Obligations.AndiMasksWithSignExtendedField : Prop :=
  ∀ (s : State) (rs rt : RegIndex) (f : BitVec 16),
    (∀ c : Codes, c.Admissible → decodeWith c (c.opAndi ++ rs ++ rt ++ f) = .instr (.andi rs rt (sext32 f))) ∧
    ∃ t, exec (.andi rs rt (sext32 f)) s = .next t ∧
      CompletesWriting rt ((if f.toNat < 0x8000 then 0 else extract (s.reg rs) 31 16) ++
        (extract (s.reg rs) 15 0 &&& f)) s t

/-- R132: the upper half is all ones for a field with bit 15 set, and passes through otherwise (the sign-extended
immediate is the spec's decision D16, log 16). -/
def Obligations.OriSetsWithSignExtendedField : Prop :=
  ∀ (s : State) (rs rt : RegIndex) (f : BitVec 16),
    (∀ c : Codes, c.Admissible → decodeWith c (c.opOri ++ rs ++ rt ++ f) = .instr (.ori rs rt (sext32 f))) ∧
    ∃ t, exec (.ori rs rt (sext32 f)) s = .next t ∧
      CompletesWriting rt ((if f.toNat < 0x8000 then extract (s.reg rs) 31 16 else 0xFFFF) ++
        (extract (s.reg rs) 15 0 ||| f)) s t

/-- R133: the field in the upper half, zeros in the lower. -/
def Obligations.LuiPutsFieldInUpperHalf : Prop :=
  ∀ (s : State) (rs rt : RegIndex) (f : BitVec 16),
    (∀ c : Codes, c.Admissible → decodeWith c (c.opLui ++ rs ++ rt ++ f) = .instr (.lui rs rt (sext32 f))) ∧
    ∃ t, exec (.lui rs rt (sext32 f)) s = .next t ∧ CompletesWriting rt (f ++ (0 : BitVec 16)) s t

/-! ### Control transfer -/

/-- R140: taken exactly when the two registers are equal; the offset counts words from `pc + 4`. -/
def Obligations.BeqBranchesWhenEqual : Prop :=
  ∀ (s : State) (rs rt : RegIndex) (f : BitVec 16),
    (∀ c : Codes, c.Admissible → decodeWith c (c.opBeq ++ rs ++ rt ++ f) = .instr (.beq rs rt (sext32 f))) ∧
    ∃ t, exec (.beq rs rt (sext32 f)) s = .next t ∧
      CompletesAt (if s.reg rs = s.reg rt then BitVec.ofInt 32 (s.pc.toNat + 4 + 4 * f.toInt)
        else BitVec.ofNat 32 (s.pc.toNat + 4)) s t

/-- R141: taken exactly when the two registers differ. -/
def Obligations.BneBranchesWhenDifferent : Prop :=
  ∀ (s : State) (rs rt : RegIndex) (f : BitVec 16),
    (∀ c : Codes, c.Admissible → decodeWith c (c.opBne ++ rs ++ rt ++ f) = .instr (.bne rs rt (sext32 f))) ∧
    ∃ t, exec (.bne rs rt (sext32 f)) s = .next t ∧
      CompletesAt (if s.reg rs = s.reg rt then BitVec.ofNat 32 (s.pc.toNat + 4)
        else BitVec.ofInt 32 (s.pc.toNat + 4 + 4 * f.toInt)) s t

/-- R142: the target is the shifted field alone, whatever the current pc. -/
def Obligations.JJumpsToShiftedField : Prop :=
  ∀ (s : State) (a : BitVec 26),
    (∀ c : Codes, c.Admissible → decodeWith c (c.opJ ++ a) = .instr (.j (BitVec.ofNat 32 (a.toNat * 4)))) ∧
    ∃ t, exec (.j (BitVec.ofNat 32 (a.toNat * 4))) s = .next t ∧ CompletesAt (BitVec.ofNat 32 (a.toNat * 4)) s t

/-- R143: `pc + 4` in register 31, the shifted field in the pc. -/
def Obligations.JalLinksPcPlusFour : Prop :=
  ∀ (s : State) (a : BitVec 26),
    (∀ c : Codes, c.Admissible → decodeWith c (c.opJal ++ a) = .instr (.jal (BitVec.ofNat 32 (a.toNat * 4)))) ∧
    ∃ t, exec (.jal (BitVec.ofNat 32 (a.toNat * 4))) s = .next t ∧
      t.reg 31 = BitVec.ofNat 32 (s.pc.toNat + 4) ∧ (∀ r, r ≠ 31 → t.reg r = s.reg r) ∧ t.lastChanged = some 31 ∧
      t.pc = BitVec.ofNat 32 (a.toNat * 4) ∧ SameMemory s t ∧ SameControl s t

/-- R144: all 32 bits of the register, unchecked; no register is written whatever the unused fields hold. -/
def Obligations.JrCopiesRegisterToPc : Prop :=
  ∀ (s : State) (rs rt rd : RegIndex) (a : Shamt),
    (∀ c : Codes, c.Admissible →
      decodeWith c ((0 : Code) ++ rs ++ rt ++ rd ++ a ++ c.fnJr) = .instr (.jr rs rt rd a)) ∧
    ∃ t, exec (.jr rs rt rd a) s = .next t ∧ CompletesAt (s.reg rs) s t

/-- A call and its return: `jr` through the register that `jal` linked goes to the word after the `jal` (R145, the
spec's inference). -/
def Obligations.JrAfterJalReturnsToNextWord : Prop :=
  ∀ (s u : State) (target : Word) (rt rd : RegIndex) (a : Shamt) (t : State),
    exec (.jal target) s = .next t → u.reg 31 = t.reg 31 →
    ∃ v, exec (.jr 31 rt rd a) u = .next v ∧ v.pc = s.pc + 4

/-! ### Load and store

The value transfer is the spec's decision D4 (log 5), the alignment halt its decision D8 (log 13). -/

/-- R150 with `ram`: an aligned address inside the array. -/
def Obligations.LwLoadsTheWordAtEffectiveAddress : Prop :=
  ∀ (s : State) (rs rt : RegIndex) (f : BitVec 16),
    (∀ c : Codes, c.Admissible → decodeWith c (c.opLw ++ rs ++ rt ++ f) = .instr (.lw rs rt (sext32 f))) ∧
    (s.cfg.memStage = .ram →
      let ea := s.effectiveAddress rs (sext32 f)
      ea.toNat % 4 = 0 → s.cfg.textBase.toNat ≤ ea.toNat → ea.toNat < s.cfg.textBase.toNat + 4 * s.cfg.nWords →
      ∃ t, exec (.lw rs rt (sext32 f)) s = .next t ∧
        CompletesWriting rt (s.memWord ((ea.toNat - s.cfg.textBase.toNat) / 4)) s t)

/-- R151 with `ram`: an aligned address inside the array; the array is in its canonical form, which every step keeps
(StepKeepsTheInvariant). -/
def Obligations.SwStoresTheWordAtEffectiveAddress : Prop :=
  ∀ (s : State) (rs rt : RegIndex) (f : BitVec 16),
    (∀ c : Codes, c.Admissible → decodeWith c (c.opSw ++ rs ++ rt ++ f) = .instr (.sw rs rt (sext32 f))) ∧
    (s.cfg.memStage = .ram → Memory.wf s.cfg s.mem →
      let ea := s.effectiveAddress rs (sext32 f)
      ea.toNat % 4 = 0 → s.cfg.textBase.toNat ≤ ea.toNat → ea.toNat < s.cfg.textBase.toNat + 4 * s.cfg.nWords →
      ∃ t, exec (.sw rs rt (sext32 f)) s = .next t ∧
        t.memWord ((ea.toNat - s.cfg.textBase.toNat) / 4) = s.reg rt ∧
        SameMemoryBut ((ea.toNat - s.cfg.textBase.toNat) / 4) s t ∧
        WritesNoRegister s t ∧ t.pc = BitVec.ofNat 32 (s.pc.toNat + 4) ∧ SameControl s t)

/-- R152: the one addressing mode, base plus signed byte offset modulo 2^32, unscaled. -/
def Obligations.EffectiveAddressIsBasePlusSignedOffset : Prop :=
  ∀ (s : State) (rs : RegIndex) (f : BitVec 16),
    s.effectiveAddress rs (sext32 f) = BitVec.ofInt 32 ((s.reg rs).toNat + f.toInt)

/-- R47: a misaligned fetch, load or store halts with `AddressMisaligned` and changes nothing else, in range or not
(the spec's decision D8, log 13). -/
def Obligations.MisalignedAccessHalts : Prop :=
  (∀ s : State, s.runState = .running → s.haltReqNow = false → s.pc.toNat % 4 ≠ 0 →
    step s = .next { s with runState := .halted .addressMisaligned, haltReq := s.haltReq.tail }) ∧
  (∀ (s : State) (rs rt : RegIndex) (v : Word), s.cfg.memStage = .ram → (s.effectiveAddress rs v).toNat % 4 ≠ 0 →
    exec (.lw rs rt v) s = .next { s with runState := .halted .addressMisaligned } ∧
    exec (.sw rs rt v) s = .next { s with runState := .halted .addressMisaligned })

/-- R46: an aligned fetch, load or store outside the array halts with `MemoryOutOfRange` and changes nothing else. -/
def Obligations.OutOfRangeAccessHalts : Prop :=
  (∀ s : State, s.runState = .running → s.haltReqNow = false → s.pc.toNat % 4 = 0 →
    (s.pc.toNat < s.cfg.textBase.toNat ∨ s.cfg.textBase.toNat + 4 * s.cfg.nWords ≤ s.pc.toNat) →
    step s = .next { s with runState := .halted .memoryOutOfRange, haltReq := s.haltReq.tail }) ∧
  (∀ (s : State) (rs rt : RegIndex) (v : Word), s.cfg.memStage = .ram → (s.effectiveAddress rs v).toNat % 4 = 0 →
    ((s.effectiveAddress rs v).toNat < s.cfg.textBase.toNat ∨
      s.cfg.textBase.toNat + 4 * s.cfg.nWords ≤ (s.effectiveAddress rs v).toNat) →
    exec (.lw rs rt v) s = .next { s with runState := .halted .memoryOutOfRange } ∧
    exec (.sw rs rt v) s = .next { s with runState := .halted .memoryOutOfRange })

/-- R55: with `stub`, `lw` writes its effective address and `sw` writes no register and no memory, whatever the address
(the spec's decision D4, log 5). That `sw` also sets `last_changed` to none, where R55 says "changes nothing but `pc`", is
the model's choice (log 5, from R104). -/
def Obligations.StubStageMakesNoAccess : Prop :=
  ∀ (s : State) (rs rt : RegIndex) (v : Word), s.cfg.memStage = .stub →
    (∃ t, exec (.lw rs rt v) s = .next t ∧ CompletesWriting rt (s.effectiveAddress rs v) s t) ∧
    (∃ t, exec (.sw rs rt v) s = .next t ∧ CompletesAt (BitVec.ofNat 32 (s.pc.toNat + 4)) s t)

/-- R43: `InRange` is the half-open interval of the array (no wrap below the base: the spec's decision D10, log 14). -/
def Obligations.InRangeIsTheArrayInterval : Prop :=
  ∀ (c : Config) (a : Word), inRange c a = true ↔
    c.textBase.toNat ≤ a.toNat ∧ a.toNat < c.textBase.toNat + 4 * c.nWords

/-- The word addresses of the array and its indices correspond one to one, for legal parameters (R31, R42, R195). -/
def Obligations.IndexAndAddressAreInverse : Prop :=
  ∀ c : Config, c.WF →
    (∀ i < c.nWords, aligned (addressOf c i) = true ∧ inRange c (addressOf c i) = true ∧ index c (addressOf c i) = i) ∧
    (∀ a : Word, aligned a = true → inRange c a = true → index c a < c.nWords ∧ addressOf c (index c a) = a)

/-- A load reads the latest store to its word: `sw` then `lw` at the same effective address gives the stored value
(R51; D4, log 5). -/
def Obligations.LoadAfterStoreReadsTheStoredWord : Prop :=
  ∀ (s t : State) (rs rt rd : RegIndex) (v : Word) (rs' : RegIndex) (v' : Word),
    s.cfg.memStage = .ram → Memory.wf s.cfg s.mem → s.runState = .running →
    exec (.sw rs rt v) s = .next t → t.runState = .running →
    t.effectiveAddress rs' v' = s.effectiveAddress rs v → ¬ t.IsZeroReg rd →
    ∃ u, exec (.lw rs' rd v') t = .next u ∧ u.reg rd = s.reg rt

/-- A store is visible to the very next fetch, the instruction segment included (R53, the spec's decision D9, log 21). -/
def Obligations.StoreIsSeenByTheNextFetch : Prop :=
  ∀ (s t : State) (rs rt : RegIndex) (v : Word),
    s.cfg.memStage = .ram → Memory.wf s.cfg s.mem → s.runState = .running →
    exec (.sw rs rt v) s = .next t → t.runState = .running → s.effectiveAddress rs v = t.pc →
    t.fetchDecode = (match decodeWith s.cfg.codes (s.reg rt) with
      | .instr i => .ok i
      | .error _ => .error .illegalInstruction)

/-! ### The step -/

/-- At a running machine with no halt request, when the word at an aligned pc inside the array decodes to `i`, the step
is `i` at the same state with one value of the halt input taken; nothing else is done around `exec` (R105). -/
def Obligations.StepRunsTheDecodedInstruction : Prop :=
  ∀ (s : State) (i : Instr), s.runState = .running → s.haltReqNow = false → s.pc.toNat % 4 = 0 →
    s.cfg.textBase.toNat ≤ s.pc.toNat → s.pc.toNat < s.cfg.textBase.toNat + 4 * s.cfg.nWords →
    decodeWith s.cfg.codes (s.memWord ((s.pc.toNat - s.cfg.textBase.toNat) / 4)) = .instr i →
    step s = exec i { s with haltReq := s.haltReq.tail }

/-- R168: a halt request stops the step before the fetch, whatever the instruction; nothing but `run_state` changes (its
place before every other check is the spec's decision D11; the schedule is the model's, log 8). -/
def Obligations.HaltRequestStopsBeforeFetch : Prop :=
  ∀ s : State, s.runState = .running → s.haltReq.head? = some true →
    step s = .next { s with runState := .halted .userRequested, haltReq := s.haltReq.tail }

/-- R161: an illegal word halts the machine with `IllegalInstruction`, and no register or pc mutation is applied. That the
step takes one value of the halt input is the model's choice (log 8). -/
def Obligations.IllegalWordHaltsWithoutMutation : Prop :=
  ∀ s : State, s.runState = .running → s.haltReqNow = false → aligned s.pc = true → inRange s.cfg s.pc = true →
    decodeWith s.cfg.codes (s.memWord (index s.cfg s.pc)) = .error .illegalInstruction →
    step s = .next { s with runState := .halted .illegalInstruction, haltReq := s.haltReq.tail }

/-- R101, R202: a step exists exactly when the machine runs; what `step` answers in a halted one, the fault
`halted`, is the model's choice (log 9). -/
def Obligations.StepExistsExactlyWhenRunning : Prop :=
  ∀ s : State, ((∃ t, step s = .next t) ↔ s.runState = .running) ∧
    ∀ r, s.runState = .halted r → step s = .fault (.halted r)

/-- R103: a halting step changes nothing but `run_state`. That it takes one value of the halt input is the model's choice
(log 8). -/
def Obligations.HaltingStepChangesOnlyRunState : Prop :=
  ∀ s t : State, step s = .next t → t.runState ≠ .running →
    ∃ r, t = { s with runState := .halted r, haltReq := s.haltReq.tail }

/-- R102: the whole step is the stage table, first failing stage first, and the commit when none fails (the order of
stages 0, 1/2 and 5/6 is the spec's decision D11). -/
def Obligations.StepFollowsTheStageTable : Prop :=
  ∀ s : State, s.runState = .running →
    (∀ r, Datapath.stageFault s = some r →
      step s = .next { s with runState := .halted r, haltReq := s.haltReq.tail }) ∧
    (Datapath.stageFault s = none →
      ∃ i, decodeWith s.cfg.codes (s.memWord (index s.cfg s.pc)) = .instr i ∧
        step s = .next (Datapath.commit i { s with haltReq := s.haltReq.tail }))

/-- The per-instruction meanings and the datapath's tables agree, for every instruction and state (R91, R95, R97, R98,
R104, R105; "where a per-instruction rule and a table here state the same fact they agree", 40_datapath.md). -/
def Obligations.MeaningsAgreeWithTheDatapath : Prop :=
  ∀ (i : Instr) (s : State), exec i s = .next (Datapath.run i s)

/-- R97: the destination of every instruction: it is the one register reported and the only one that may change (for a
hard-wired register 0, the parameter of R23, none). -/
def Obligations.OnlyTheDestinationRegisterChanges : Prop :=
  ∀ (i : Instr) (s t : State), s.runState = .running → exec i s = .next t → t.runState = .running →
    t.lastChanged = (match Datapath.destination i with
      | some d => if s.cfg.zeroRegHardwired = true ∧ d = 0 then none else some d
      | none => none) ∧
    ∀ r, Datapath.destination i ≠ some r → t.reg r = s.reg r

/-- R25, the "reads" column: two states that agree on the registers an instruction reads, on pc, memory and parameters
get the same pc, the same memory, the same report and the same destination value, or halt for the same reason. -/
def Obligations.ResultDependsOnlyOnTheSources : Prop :=
  ∀ (i : Instr) (s s' : State), s'.pc = s.pc → s'.mem = s.mem → s'.cfg = s.cfg →
    (∀ r ∈ Datapath.sources i, s'.reg r = s.reg r) →
    ∃ t t', exec i s = .next t ∧ exec i s' = .next t' ∧
      ((∃ r, t = s.halt r ∧ t' = s'.halt r) ∨
       (t'.pc = t.pc ∧ t'.mem = t.mem ∧ t'.lastChanged = t.lastChanged ∧
        ∀ d, Datapath.destination i = some d → t'.reg d = t.reg d))

/-- R96: only `beq`, `bne`, `j`, `jal`, `jr` can make the next pc anything but `pc + 4`; a halting instruction leaves it. -/
def Obligations.OnlyFiveInstructionsTransferControl : Prop :=
  ∀ (i : Instr) (s t : State), exec i s = .next t →
    (∀ rs rt v, i ≠ .beq rs rt v) → (∀ rs rt v, i ≠ .bne rs rt v) → (∀ a, i ≠ .j a) → (∀ a, i ≠ .jal a) →
    (∀ rs rt rd a, i ≠ .jr rs rt rd a) →
    t.pc = BitVec.ofNat 32 (s.pc.toNat + 4) ∨ ∃ r, t = s.halt r

/-- R31: no step changes a word of memory but a `sw`, and that one only the word at its effective address. -/
def Obligations.OnlySwChangesMemory : Prop :=
  ∀ (s t : State) (k : Nat), s.Inv → step s = .next t → t.memWord k ≠ s.memWord k →
    ∃ rs rt v, s.fetchDecode = .ok (.sw rs rt v) ∧ s.cfg.memStage = .ram ∧
      k = index s.cfg (s.effectiveAddress rs v) ∧ t.memWord k = s.reg rt

/-- R100, the overwrite law run twice in a row: an instruction whose destination is none of its sources gives the same
value again, it never accumulates (`jal` apart, whose value is its own pc plus 4). -/
def Obligations.RepeatedWritesDoNotAccumulate : Prop :=
  ∀ (i : Instr) (s t u : State) (d : RegIndex), Datapath.destination i = some d → d ∉ Datapath.sources i →
    (∀ a, i ≠ .jal a) → exec i s = .next t → exec i t = .next u → u.reg d = t.reg d

/-- R28: `last_changed` is an output only: two machines that differ in it alone make the same step, and after a step
that completes they are equal (the update rule is the spec's decision D18, log 18). -/
def Obligations.LastChangedIsAnOutputOnly : Prop :=
  ∀ (s : State) (l : Option RegIndex), s.runState = .running →
    ∃ t t', step s = .next t ∧ step { s with lastChanged := l } = .next t' ∧
      (t.runState = .running → t' = t) ∧ (t.runState ≠ .running → t' = { t with lastChanged := l })

/-- R26: a step keeps an aligned pc aligned unless it executes a `jr` (the spec's inference). -/
def Obligations.OnlyJrCanMisalignThePc : Prop :=
  ∀ s t : State, s.pc.toNat % 4 = 0 → step s = .next t →
    t.pc.toNat % 4 = 0 ∨ ∃ rs rt rd a, s.fetchDecode = .ok (.jr rs rt rd a)

/-- R23 with `ZERO_REG_HARDWIRED`: register 0 reads 0 before and after every step, is never written and never reported
by a completed step (the parameter is the spec's decision D5, log 6). -/
def Obligations.HardwiredZeroIsNeverWritten : Prop :=
  ∀ s t : State, s.cfg.zeroRegHardwired = true → step s = .next t →
    s.reg 0 = 0 ∧ t.reg 0 = 0 ∧ t.regs[0] = s.regs[0] ∧ (t.runState = .running → t.lastChanged ≠ some 0)

/-- Each step takes exactly one value of the halt input (R168) and none changes the parameters (R8; both fields are the
model's own, log 1 and log 8). -/
def Obligations.StepTakesOneInputAndKeepsParameters : Prop :=
  ∀ s t : State, step s = .next t → t.haltReq = s.haltReq.tail ∧ t.cfg = s.cfg

/-- R160: a step leaves the safe states only by a failing stage other than the halt request, and then always. -/
def Obligations.SafetyIsLostOnlyByAFailedStage : Prop :=
  ∀ s t : State, step s = .next t →
    (t.Safe ↔ Datapath.stageFault s = none ∨ Datapath.stageFault s = some .userRequested)

/-! ### Reset, load, invariant -/

/-- The reset state meets the invariant. -/
def Obligations.ResetMeetsTheInvariant : Prop := State.reset.Inv

/-- Every load with legal parameters gives a state that meets the invariant, whether the program fits or not (R190,
R192). -/
def Obligations.LoadMeetsTheInvariant : Prop :=
  ∀ (c : Config) (p : List Word) (q : List Bool), c.WF → (State.load c p q).Inv

/-- Every step keeps the invariant: legal parameters, the array in canonical form inside its bounds, a hard-wired zero
register never written and never reported (R31, R23, R195). -/
def Obligations.StepKeepsTheInvariant : Prop :=
  ∀ s t : State, s.Inv → step s = .next t → t.Inv

/-- R32, R190 to R192: what the load leaves. A program that fits stands in the array from index 0, the rest reads
`MEM_FILL`, and the machine runs at `TEXT_BASE`; one that does not fit is not loaded and the machine never steps. The
values of registers, `last_changed` and unloaded memory are the spec's decision D6 (log 7), the rejection its D19 (log 19). -/
def Obligations.LoadGivesTheStateOfTheSpec : Prop :=
  ∀ (c : Config) (p : List Word) (q : List Bool),
    let s := State.load c p q
    s.pc = c.textBase ∧ s.regs = c.regReset ∧ s.lastChanged = none ∧
    (p.length ≤ c.maxInstrWords → s.runState = .running ∧
      (∀ k (h : k < p.length), s.memWord k = p[k]) ∧ ∀ k, p.length ≤ k → s.memWord k = c.memFill) ∧
    (c.maxInstrWords < p.length → s.runState = .halted .programTooLarge ∧ (∀ k, s.memWord k = c.memFill) ∧
      ∀ t, step s ≠ .next t)

/-- Running past the last instruction: from any running state whose array holds only zero words from the pc on, with no
halt request to come, the machine runs them as `sll $0,$0,0` to the end of the array, changing no register value and no
memory, and the step after that halts with `MemoryOutOfRange` (R48, R194, R196, the spec's inferences; `FN_SLL = 0` is
its decision D2). Shut out is the one array that fills all 4 GiB from base 0, where no pc is outside it (log 28). -/
def Obligations.RunningOffTheEndHalts : Prop :=
  ∀ (s : State) (n : Nat), s.cfg.WF → s.cfg.codes.fnSll = 0 → s.cfg.nWords < 2 ^ 30 → s.runState = .running →
    (∀ b ∈ s.haltReq, b = false) → s.pc.toNat % 4 = 0 → s.cfg.textBase.toNat ≤ s.pc.toNat →
    s.pc.toNat + 4 * n = s.cfg.textBase.toNat + 4 * s.cfg.nWords →
    (∀ k, index s.cfg s.pc ≤ k → k < s.cfg.nWords → s.memWord k = 0) →
    ∃ t, Host.Core.run Sys2Proof.core n s = .next t ∧ t.runState = .running ∧
      t.pc = BitVec.ofNat 32 (s.cfg.textBase.toNat + 4 * s.cfg.nWords) ∧ (∀ r, t.reg r = s.reg r) ∧
      SameMemory s t ∧
      ∃ u, Host.Core.run Sys2Proof.core (n + 1) s = .next u ∧ u = { t with
        runState := .halted .memoryOutOfRange, haltReq := t.haltReq.tail }
end

