-- ==== Sys2Proof/Laws/Encoding.lean ====
section
/-! SUPPORT. Words as numbers: a field is a quotient and a remainder, an encoded word a sum of shifted fields. With these
the extraction of a field from an encoded word is linear arithmetic. -/

namespace Sys2Proof

/-- Concatenation as arithmetic. -/
theorem toNat_append_add {m n : Nat} (x : BitVec m) (y : BitVec n) :
    (x ++ y).toNat = x.toNat * 2 ^ n + y.toNat := by
  rw [BitVec.toNat_append, ← Nat.shiftLeft_add_eq_or_of_lt y.isLt, Nat.shiftLeft_eq]

/-- The extractor as arithmetic (R60). -/
theorem extract_toNat (w : Word) (high low : Nat) :
    (extract w high low).toNat = w.toNat / 2 ^ low % 2 ^ (high - low + 1) := by
  simp [BitVec.extractLsb, Nat.shiftRight_eq_div_pow]

theorem encRR_toNat (f : Code) (rs rt rd : RegIndex) (shamt : Shamt) :
    (encRR f rs rt rd shamt).toNat =
      rs.toNat * 2 ^ 21 + rt.toNat * 2 ^ 16 + rd.toNat * 2 ^ 11 + shamt.toNat * 2 ^ 6 + f.toNat := by
  unfold encRR
  simp only [toNat_append_add]
  simp
  ring

theorem encRI_toNat (op : Code) (rs rt : RegIndex) (v : Word) :
    (encRI op rs rt v).toNat =
      op.toNat * 2 ^ 26 + rs.toNat * 2 ^ 21 + rt.toNat * 2 ^ 16 + v.toNat % 2 ^ 16 := by
  unfold encRI
  simp only [toNat_append_add, extract_toNat]
  simp
  ring

theorem encJ_toNat (op : Code) (t : Word) :
    (encJ op t).toNat = op.toNat * 2 ^ 26 + t.toNat / 4 % 2 ^ 26 := by
  unfold encJ
  rw [toNat_append_add, extract_toNat]
  norm_num

theorem jumpField_toNat (f : BitVec 26) : (jumpField f).toNat = f.toNat * 4 := by
  have := f.isLt
  simp only [jumpField, BitVec.toNat_shiftLeft, BitVec.toNat_setWidth, Nat.shiftLeft_eq]
  omega

/-- The sign extension as arithmetic (R61). -/
theorem sext32_toNat (f : BitVec 16) :
    (sext32 f).toNat = if f.toNat < 0x8000 then f.toNat else f.toNat + 0xFFFF0000 := by
  have := f.isLt
  simp only [sext32, BitVec.toNat_signExtend, BitVec.msb_eq_decide, BitVec.toNat_setWidth]
  split <;> split <;> simp_all <;> omega

/-- The bits that select an instruction: an encoded word under the two masks of R74. -/
theorem encRR_and_mask (f : Code) (rs rt rd : RegIndex) (shamt : Shamt) :
    encRR f rs rt rd shamt &&& 0xFC00003F = f.setWidth 32 := by
  apply BitVec.eq_of_getLsbD_eq
  intro k hk
  have hw : (encRR f rs rt rd shamt).getLsbD k = if k < 6 then f.getLsbD k else
      if k < 11 then shamt.getLsbD (k - 6) else if k < 16 then rd.getLsbD (k - 11) else
      if k < 21 then rt.getLsbD (k - 16) else if k < 26 then rs.getLsbD (k - 21) else false := by
    unfold encRR
    simp only [BitVec.getLsbD_append]
    grind
  rw [BitVec.getLsbD_and, hw]
  interval_cases k <;> simp

/-- A word under the opcode mask is its opcode, shifted. -/
theorem and_opcode_mask (w : Word) : w &&& 0xFC000000 = ((extract w 31 26).setWidth 32) <<< 26 := by
  apply BitVec.eq_of_getLsbD_eq
  intro k hk
  interval_cases k <;> simp

theorem encRI_opcode (op : Code) (rs rt : RegIndex) (v : Word) : extract (encRI op rs rt v) 31 26 = op := by
  have := op.isLt
  have := rs.isLt
  have := rt.isLt
  apply BitVec.eq_of_toNat_eq
  rw [extract_toNat, encRI_toNat]
  omega

theorem encJ_opcode (op : Code) (t : Word) : extract (encJ op t) 31 26 = op := by
  have := op.isLt
  apply BitVec.eq_of_toNat_eq
  rw [extract_toNat, encJ_toNat]
  omega

theorem encRR_opcode (f : Code) (rs rt rd : RegIndex) (shamt : Shamt) :
    extract (encRR f rs rt rd shamt) 31 26 = 0 := by
  have := f.isLt
  have := rs.isLt
  have := rt.isLt
  have := rd.isLt
  have := shamt.isLt
  apply BitVec.eq_of_toNat_eq
  rw [extract_toNat, encRR_toNat]
  show _ = 0
  omega

end Sys2Proof
end

