-- ==== Sys2Proof/Laws/Memory.lean ====
section
/-! SUPPORT. The array: what a read sees after a write and after the load, and that every operation keeps the canonical
form. -/

namespace Sys2Proof.Machine

/-- Indices strictly rising: the part of the canonical form that reading after writing rests on. -/
abbrev Memory.Sorted (m : Memory) : Prop := m.Pairwise fun p q => p.1 < q.1

/-- An index below every listed one reads the fill. -/
theorem Memory.read_of_lt {fill : Word} {m : Memory} {i : Nat} (h : ∀ p ∈ m, i < p.1) :
    Memory.read fill m i = fill := by
  induction m with
  | nil => rfl
  | cons p m ih =>
    have hp := h p (by simp)
    simp only [Memory.read]
    rw [if_neg (by omega)]
    exact ih fun q hq => h q (by simp [hq])

/-- Read after write: the written index gives the value, every other index reads as before. -/
theorem Memory.read_write {fill : Word} {m : Memory} (hm : Memory.Sorted m) (i : Nat) (v : Word) (k : Nat) :
    Memory.read fill (Memory.write fill m i v) k = if k = i then v else Memory.read fill m k := by
  induction m with
  | nil =>
    have hki : i = k ↔ k = i := eq_comm
    by_cases hv : v = fill <;> by_cases hk : k = i <;> simp [Memory.write, Memory.read, hv, hk, hki]
  | cons p m ih =>
    obtain ⟨j, w⟩ := p
    rw [Memory.Sorted, List.pairwise_cons] at hm
    obtain ⟨hlt, hs⟩ := hm
    simp only [Memory.write]
    split
    · rename_i hij
      have hfill : Memory.read fill ((j, w) :: m) i = fill := by
        apply Memory.read_of_lt
        intro p hp
        rcases List.mem_cons.1 hp with rfl | hp
        · exact hij
        · exact lt_trans hij (hlt p hp)
      split
      · rename_i hv
        by_cases hk : k = i
        · rw [if_pos hk, hk, hfill, hv]
        · rw [if_neg hk]
      · by_cases hk : k = i
        · simp [Memory.read, hk]
        · rw [if_neg hk, Memory.read, if_neg (fun h => hk h.symm)]
    · split
      · rename_i _ hij
        subst hij
        split
        · rename_i hv
          by_cases hk : k = i
          · subst hk
            rw [if_pos rfl, Memory.read_of_lt hlt, hv]
          · rw [if_neg hk, Memory.read, if_neg (fun h => hk h.symm)]
        · by_cases hk : k = i
          · simp [Memory.read, hk]
          · have hk' : ¬ i = k := fun h => hk h.symm
            simp [Memory.read, hk, hk']
      · rename_i hn1 hn2
        by_cases hk : j = k
        · subst hk
          rw [if_neg (by omega)]
          simp [Memory.read]
        · simp only [Memory.read, if_neg hk]
          exact ih hs

/-- A write keeps the indices rising and adds no index but its own. -/
theorem Memory.mem_write {fill : Word} {m : Memory} {i : Nat} {v : Word} {p : Nat × Word}
    (h : p ∈ Memory.write fill m i v) : p ∈ m ∨ (p = (i, v) ∧ v ≠ fill) := by
  induction m with
  | nil =>
    simp only [Memory.write] at h
    split at h <;> simp_all
  | cons q m ih =>
    obtain ⟨j, w⟩ := q
    simp only [Memory.write] at h
    repeat' split at h
    all_goals simp only [List.mem_cons] at h ⊢
    all_goals grind

theorem Memory.write_sorted {fill : Word} {m : Memory} (hm : Memory.Sorted m) (i : Nat) (v : Word) :
    Memory.Sorted (Memory.write fill m i v) := by
  induction m with
  | nil => simp only [Memory.write]; split <;> simp
  | cons q m ih =>
    obtain ⟨j, w⟩ := q
    have hm' := hm
    rw [Memory.Sorted, List.pairwise_cons] at hm
    obtain ⟨hlt, hs⟩ := hm
    simp only [Memory.write]
    split
    · rename_i hij
      split
      · exact hm'
      · rw [Memory.Sorted, List.pairwise_cons]
        refine ⟨fun p hp => ?_, hm'⟩
        rcases List.mem_cons.1 hp with rfl | hp
        · exact hij
        · exact lt_trans hij (hlt p hp)
    · split
      · rename_i _ hij
        subst hij
        split
        · exact hs
        · exact List.pairwise_cons.2 ⟨hlt, hs⟩
      · refine List.pairwise_cons.2 ⟨fun p hp => ?_, ih hs⟩
        rcases Memory.mem_write hp with hp | ⟨rfl, _⟩
        · exact hlt p hp
        · show j < i
          omega

/-- Every write inside the array keeps the canonical form. -/
theorem Memory.write_wf {c : Config} {m : Memory} (hm : Memory.wf c m) {i : Nat} (hi : i < c.nWords) (v : Word) :
    Memory.wf c (Memory.write c.memFill m i v) := by
  refine ⟨Memory.write_sorted hm.1 i v, fun p hp => ?_⟩
  rcases Memory.mem_write hp with hp | ⟨rfl, hv⟩
  · exact hm.2 p hp
  · exact ⟨hi, hv⟩

/-- The entries that the load lists. -/
theorem Memory.mem_loadFrom {fill : Word} {ws : List Word} {i : Nat} {p : Nat × Word}
    (h : p ∈ Memory.loadFrom fill i ws) : i ≤ p.1 ∧ p.1 < i + ws.length ∧ p.2 ≠ fill := by
  induction ws generalizing i with
  | nil => simp [Memory.loadFrom] at h
  | cons w ws ih =>
    simp only [Memory.loadFrom] at h
    split at h
    · obtain ⟨h1, h2, h3⟩ := ih h
      rw [List.length_cons]
      exact ⟨by omega, by omega, h3⟩
    · rename_i hw
      rcases List.mem_cons.1 h with rfl | h
      · simp [hw]
      · obtain ⟨h1, h2, h3⟩ := ih h
        rw [List.length_cons]
        exact ⟨by omega, by omega, h3⟩

theorem Memory.loadFrom_sorted (fill : Word) (ws : List Word) (i : Nat) :
    Memory.Sorted (Memory.loadFrom fill i ws) := by
  induction ws generalizing i with
  | nil => exact List.Pairwise.nil
  | cons w ws ih =>
    simp only [Memory.loadFrom]
    split
    · exact ih (i + 1)
    · exact List.pairwise_cons.2 ⟨fun p hp => (Memory.mem_loadFrom hp).1, ih (i + 1)⟩

/-- The load gives a canonical memory when the program fits. -/
theorem Memory.load_wf (c : Config) (ws : List Word) (h : ws.length ≤ c.nWords) :
    Memory.wf c (Memory.loadFrom c.memFill 0 ws) := by
  refine ⟨Memory.loadFrom_sorted _ _ _, fun p hp => ?_⟩
  obtain ⟨_, h2, h3⟩ := Memory.mem_loadFrom hp
  exact ⟨by omega, h3⟩

/-- After the load, index `i + k` holds word `k` of the program, and the fill beyond it. -/
theorem Memory.read_loadFrom (fill : Word) (ws : List Word) (i k : Nat) :
    Memory.read fill (Memory.loadFrom fill i ws) (i + k) = ws.getD k fill := by
  induction ws generalizing i k with
  | nil => simp [Memory.loadFrom, Memory.read]
  | cons w ws ih =>
    cases k with
    | zero =>
      simp only [Memory.loadFrom, Nat.add_zero, List.getD_cons_zero]
      split
      · rename_i hw
        rw [hw]
        exact Memory.read_of_lt fun p hp => (Memory.mem_loadFrom hp).1
      · simp [Memory.read]
    | succ k =>
      have key := ih (i + 1) k
      rw [show i + 1 + k = i + (k + 1) by omega] at key
      simp only [Memory.loadFrom, List.getD_cons_succ]
      split
      · exact key
      · rw [Memory.read, if_neg (by omega)]
        exact key

/-- The memory of the reset state is canonical. -/
theorem reset_mem_wf : Memory.wf State.reset.cfg State.reset.mem := by decide

end Sys2Proof.Machine
end

