-- ==== Sys2Proof/Laws/State.lean ====
section
/-! SUPPORT. One lemma per field per update, so that no later proof unfolds a record update. -/

namespace Sys2Proof.Machine

variable (s : State)

/-! `halt` -/

@[simp] theorem State.halt_regs (r : HaltReason) : (s.halt r).regs = s.regs := rfl
@[simp] theorem State.halt_pc (r : HaltReason) : (s.halt r).pc = s.pc := rfl
@[simp] theorem State.halt_runState (r : HaltReason) : (s.halt r).runState = .halted r := rfl
@[simp] theorem State.halt_lastChanged (r : HaltReason) : (s.halt r).lastChanged = s.lastChanged := rfl
@[simp] theorem State.halt_mem (r : HaltReason) : (s.halt r).mem = s.mem := rfl
@[simp] theorem State.halt_haltReq (r : HaltReason) : (s.halt r).haltReq = s.haltReq := rfl
@[simp] theorem State.halt_cfg (r : HaltReason) : (s.halt r).cfg = s.cfg := rfl

/-! `sampleHaltReq` -/

@[simp] theorem State.sampleHaltReq_regs : s.sampleHaltReq.regs = s.regs := rfl
@[simp] theorem State.sampleHaltReq_pc : s.sampleHaltReq.pc = s.pc := rfl
@[simp] theorem State.sampleHaltReq_runState : s.sampleHaltReq.runState = s.runState := rfl
@[simp] theorem State.sampleHaltReq_lastChanged : s.sampleHaltReq.lastChanged = s.lastChanged := rfl
@[simp] theorem State.sampleHaltReq_mem : s.sampleHaltReq.mem = s.mem := rfl
@[simp] theorem State.sampleHaltReq_haltReq : s.sampleHaltReq.haltReq = s.haltReq.tail := rfl
@[simp] theorem State.sampleHaltReq_cfg : s.sampleHaltReq.cfg = s.cfg := rfl

/-! `commitNone` -/

@[simp] theorem State.commitNone_regs (n : Word) : (s.commitNone n).regs = s.regs := rfl
@[simp] theorem State.commitNone_pc (n : Word) : (s.commitNone n).pc = n := rfl
@[simp] theorem State.commitNone_runState (n : Word) : (s.commitNone n).runState = s.runState := rfl
@[simp] theorem State.commitNone_lastChanged (n : Word) : (s.commitNone n).lastChanged = none := rfl
@[simp] theorem State.commitNone_mem (n : Word) : (s.commitNone n).mem = s.mem := rfl
@[simp] theorem State.commitNone_haltReq (n : Word) : (s.commitNone n).haltReq = s.haltReq := rfl
@[simp] theorem State.commitNone_cfg (n : Word) : (s.commitNone n).cfg = s.cfg := rfl

/-! `setMem` -/

@[simp] theorem State.setMem_regs (m : Memory) : (s.setMem m).regs = s.regs := rfl
@[simp] theorem State.setMem_pc (m : Memory) : (s.setMem m).pc = s.pc := rfl
@[simp] theorem State.setMem_runState (m : Memory) : (s.setMem m).runState = s.runState := rfl
@[simp] theorem State.setMem_lastChanged (m : Memory) : (s.setMem m).lastChanged = s.lastChanged := rfl
@[simp] theorem State.setMem_mem (m : Memory) : (s.setMem m).mem = m := rfl
@[simp] theorem State.setMem_haltReq (m : Memory) : (s.setMem m).haltReq = s.haltReq := rfl
@[simp] theorem State.setMem_cfg (m : Memory) : (s.setMem m).cfg = s.cfg := rfl
@[simp] theorem State.setMem_reg (m : Memory) (i : RegIndex) : (s.setMem m).reg i = s.reg i := rfl

/-! `commitReg` -/

section
variable (d : RegIndex) (v n : Word)

@[simp] theorem State.commitReg_pc : (s.commitReg d v n).pc = n := by
  unfold State.commitReg; split <;> rfl

@[simp] theorem State.commitReg_runState : (s.commitReg d v n).runState = s.runState := by
  unfold State.commitReg; split <;> rfl

@[simp] theorem State.commitReg_mem : (s.commitReg d v n).mem = s.mem := by
  unfold State.commitReg; split <;> rfl

@[simp] theorem State.commitReg_haltReq : (s.commitReg d v n).haltReq = s.haltReq := by
  unfold State.commitReg; split <;> rfl

@[simp] theorem State.commitReg_cfg : (s.commitReg d v n).cfg = s.cfg := by
  unfold State.commitReg; split <;> rfl

/-- `last_changed` after a commit with destination `d` (R28, R99). -/
theorem State.commitReg_lastChanged :
    (s.commitReg d v n).lastChanged = if s.IsZeroReg d then none else some d := by
  unfold State.commitReg; split <;> rfl

/-- The register file after a commit with destination `d` (R100, R99). -/
theorem State.commitReg_regs :
    (s.commitReg d v n).regs = if s.IsZeroReg d then s.regs else s.regs.set d.toNat v := by
  unfold State.commitReg; split <;> rfl

end

/-! Reads depend on the registers, the memory and the parameters only. -/

/-- A register reads the same in two states with the same register file and parameters. -/
theorem State.reg_congr {s t : State} (hr : t.regs = s.regs) (hc : t.cfg = s.cfg) (i : RegIndex) :
    t.reg i = s.reg i := by
  simp only [State.reg, State.IsZeroReg, hr, hc]

@[simp] theorem State.halt_reg (r : HaltReason) (i : RegIndex) : (s.halt r).reg i = s.reg i := rfl
@[simp] theorem State.sampleHaltReq_reg (i : RegIndex) : s.sampleHaltReq.reg i = s.reg i := rfl
@[simp] theorem State.commitNone_reg (n : Word) (i : RegIndex) : (s.commitNone n).reg i = s.reg i := rfl
@[simp] theorem State.halt_memWord (r : HaltReason) (k : Nat) : (s.halt r).memWord k = s.memWord k := rfl
@[simp] theorem State.sampleHaltReq_memWord (k : Nat) : s.sampleHaltReq.memWord k = s.memWord k := rfl
@[simp] theorem State.commitNone_memWord (n : Word) (k : Nat) : (s.commitNone n).memWord k = s.memWord k := rfl

@[simp] theorem State.commitReg_memWord (d : RegIndex) (v n : Word) (k : Nat) :
    (s.commitReg d v n).memWord k = s.memWord k := by
  simp [State.memWord]

/-- Every register after a commit with destination `d`: `d` reads `v` unless it is the hard-wired zero, every other
register reads as before (R22, R23, R100). -/
theorem State.commitReg_reg (d : RegIndex) (v n : Word) (i : RegIndex) :
    (s.commitReg d v n).reg i = if ¬ s.IsZeroReg d ∧ i = d then v else s.reg i := by
  by_cases hz : s.IsZeroReg d
  · rw [if_neg (by simp [hz])]
    exact State.reg_congr (by rw [State.commitReg_regs, if_pos hz]) (by simp) i
  · have hz' : ∀ j, (s.commitReg d v n).IsZeroReg j ↔ s.IsZeroReg j := fun j => by
      simp only [State.IsZeroReg, State.commitReg_cfg]
    have hregs : (s.commitReg d v n).regs = s.regs.set d.toNat v := by rw [State.commitReg_regs, if_neg hz]
    by_cases hi : i = d
    · subst hi
      rw [if_pos ⟨hz, rfl⟩, State.reg, if_neg (fun h => hz ((hz' i).1 h))]
      simp [hregs]
    · rw [if_neg (fun h => hi h.2)]
      have hne : d.toNat ≠ i.toNat := fun h => hi (BitVec.eq_of_toNat_eq h.symm)
      simp only [State.reg, hz', hregs, Vector.getElem_set_ne _ _ hne]

end Sys2Proof.Machine
end

