-- ==== Sys2Proof/Laws/Ops.lean ====
section
/-! SUPPORT. One lemma per shared operation: the address checks, load, store, fetch, the halt input. -/

namespace Sys2Proof.Machine

theorem aligned_iff (a : Word) : aligned a = true ↔ a.toNat % 4 = 0 := by
  simp only [aligned, beq_iff_eq, ← BitVec.toNat_inj]
  simp [BitVec.extractLsb]

theorem inRange_iff (c : Config) (a : Word) :
    inRange c a = true ↔ c.textBase.toNat ≤ a.toNat ∧ (a.toNat - c.textBase.toNat) / 4 < c.nWords := by
  simp [inRange]

/-- An address that passes the range check maps inside the array. -/
theorem index_lt {c : Config} {a : Word} (h : inRange c a = true) : index c a < c.nWords :=
  ((inRange_iff c a).1 h).2

/-- When an access halts, and why (R46, R47). -/
theorem accessFault_cases (c : Config) (a : Word) :
    (aligned a = false ∧ accessFault c a = some .addressMisaligned) ∨
    (aligned a = true ∧ inRange c a = false ∧ accessFault c a = some .memoryOutOfRange) ∨
    (aligned a = true ∧ inRange c a = true ∧ accessFault c a = none) := by
  unfold accessFault
  cases aligned a <;> cases inRange c a <;> simp

theorem accessFault_none {c : Config} {a : Word} (h : accessFault c a = none) :
    aligned a = true ∧ inRange c a = true := by
  rcases accessFault_cases c a with h' | h' | h' <;> simp_all

/-- A load that answers a word passed its checks and read the array (R44). -/
theorem State.loadWord_ok {s : State} {a w : Word} (h : s.loadWord a = .ok w) :
    accessFault s.cfg a = none ∧ w = s.memWord (index s.cfg a) := by
  unfold State.loadWord at h
  split at h
  · cases h
  · rename_i hn
    cases h
    exact ⟨hn, rfl⟩

theorem State.loadWord_error {s : State} {a : Word} {r : HaltReason} (h : s.loadWord a = .error r) :
    accessFault s.cfg a = some r := by
  unfold State.loadWord at h
  split at h
  · rename_i hr
    cases h
    exact hr
  · cases h

/-- A store that answers a memory passed its checks and wrote one word (R45). -/
theorem State.storeWord_ok {s : State} {a v : Word} {m : Memory} (h : s.storeWord a v = .ok m) :
    accessFault s.cfg a = none ∧ m = Memory.write s.cfg.memFill s.mem (index s.cfg a) v := by
  unfold State.storeWord at h
  split at h
  · cases h
  · rename_i hn
    cases h
    exact ⟨hn, rfl⟩

theorem State.storeWord_error {s : State} {a v : Word} {r : HaltReason} (h : s.storeWord a v = .error r) :
    accessFault s.cfg a = some r := by
  unfold State.storeWord at h
  split at h
  · rename_i hr
    cases h
    exact hr
  · cases h

/-- A store keeps the canonical form. -/
theorem State.storeWord_wf {s : State} {a v : Word} {m : Memory} (h : s.storeWord a v = .ok m)
    (hm : Memory.wf s.cfg s.mem) : Memory.wf s.cfg m := by
  obtain ⟨hn, rfl⟩ := State.storeWord_ok h
  exact Memory.write_wf hm (index_lt (accessFault_none hn).2) v

/-- Placing a word for the next fetch keeps the canonical form. -/
theorem State.placeAtPc_wf (s : State) (w : Word) (hm : Memory.wf s.cfg s.mem) :
    Memory.wf (s.placeAtPc w).cfg (s.placeAtPc w).mem := by
  unfold State.placeAtPc
  split
  · exact hm
  · rename_i m h
    exact (State.storeWord_wf h hm :)

/-- The load gives a canonical memory: a program that fits lies in the array, one that does not is not loaded. -/
theorem State.load_mem_wf (c : Config) (p : List Word) (q : List Bool) :
    Memory.wf (State.load c p q).cfg (State.load c p q).mem := by
  simp only [State.load]
  split
  · exact Memory.load_wf c p (by unfold Config.nWords; omega)
  · exact ⟨List.Pairwise.nil, fun p hp => absurd hp (by simp)⟩

/-- A fetch that answers an instruction passed its checks and decoded the word at `pc` (R48). -/
theorem State.fetchDecode_ok {s : State} {i : Instr} (h : s.fetchDecode = .ok i) :
    accessFault s.cfg s.pc = none ∧ decodeWith s.cfg.codes (s.memWord (index s.cfg s.pc)) = .instr i := by
  unfold State.fetchDecode at h
  split at h
  · cases h
  · rename_i w hw
    obtain ⟨hn, rfl⟩ := State.loadWord_ok hw
    split at h
    · cases h
    · rename_i hd
      cases h
      exact ⟨hn, hd⟩

/-- A fetch that halts did so for its address or for its word (R46, R47, R161). -/
theorem State.fetchDecode_error {s : State} {r : HaltReason} (h : s.fetchDecode = .error r) :
    accessFault s.cfg s.pc = some r ∨ (accessFault s.cfg s.pc = none ∧ r = .illegalInstruction ∧
      decodeWith s.cfg.codes (s.memWord (index s.cfg s.pc)) = .error .illegalInstruction) := by
  unfold State.fetchDecode at h
  split at h
  · rename_i hw
    cases h
    exact .inl (State.loadWord_error hw)
  · rename_i w hw
    obtain ⟨hn, rfl⟩ := State.loadWord_ok hw
    split at h
    · rename_i hd
      cases h
      exact .inr ⟨hn, rfl, hd⟩
    · cases h

@[simp] theorem State.haltReqNow_nil (s : State) (h : s.haltReq = []) : s.haltReqNow = false := by
  simp [State.haltReqNow, h]

/-- The load of the empty program with the defaults is the reset state. -/
theorem load_default_eq_reset : State.load Config.default [] [] = State.reset := by decide

@[simp] theorem isZero_iff (d : Word) : isZero d = true ↔ d = 0 := by simp [isZero]

/-- A difference is zero exactly when the two values are equal: wraparound cannot hide a difference (R140). -/
theorem isZero_sub (a b : Word) : isZero (a - b) = decide (a = b) := by
  rw [Bool.eq_iff_iff, isZero_iff, decide_eq_true_eq, sub_eq_zero]

/-- The sign of a wrapped difference is bit 31. -/
theorem isNegative_eq_msb (d : Word) : isNegative d = d.msb := by
  simp [isNegative, BitVec.msb_eq_getLsbD_last, BitVec.getLsbD_eq_getElem]

end Sys2Proof.Machine
end

