-- ==== Sys2Proof/Laws/Config.lean ====
section
/-! SUPPORT. What the constraints of 70_reset_and_hazards.md R195 on the parameters buy. -/

namespace Sys2Proof.Machine

/-- The address of an array word is exact for legal parameters: the sum does not wrap. -/
theorem addressOf_toNat {c : Config} (hc : c.WF) {i : Nat} (hi : i < c.nWords) :
    (addressOf c i).toNat = c.textBase.toNat + 4 * i := by
  have hfit := hc.2.1
  simp only [addressOf, BitVec.toNat_add, BitVec.toNat_ofNat]
  omega

/-- The addresses that `j` and `jal` can go to: the multiples of 4 below `0x10000000` (43_control_transfer.md R142). -/
theorem exists_jumpField_iff (a : Word) :
    (∃ f : BitVec 26, jumpField f = a) ↔ a.toNat < 0x10000000 ∧ a.toNat % 4 = 0 := by
  constructor
  · rintro ⟨f, rfl⟩
    have := f.isLt
    rw [jumpField_toNat]
    omega
  · rintro ⟨hlt, hal⟩
    refine ⟨BitVec.ofNat 26 (a.toNat / 4), BitVec.eq_of_toNat_eq ?_⟩
    rw [jumpField_toNat, BitVec.toNat_ofNat]
    omega

/-- Every word of a nonempty code of `len` words is the target of some `j` exactly when the code lies below `0x10000000`. -/
theorem jumpsReach_iff {c : Config} (hc : c.WF) {len : Nat} (hpos : 0 < len) (hlen : len ≤ c.nWords) :
    c.JumpsReach len ↔ ∀ k < len, ∃ f : BitVec 26, jumpField f = addressOf c k := by
  have hbase := hc.1
  constructor
  · intro h k hk
    rw [exists_jumpField_iff, addressOf_toNat hc (by omega)]
    unfold Config.JumpsReach at h
    omega
  · intro h
    have hlast := (exists_jumpField_iff _).1 (h (len - 1) (by omega))
    rw [addressOf_toNat hc (by omega)] at hlast
    unfold Config.JumpsReach
    omega

/-- Some program with an instruction in it can be loaded and run exactly when the instruction segment is not empty. -/
theorem loadable_iff (c : Config) :
    c.Loadable ↔ ∃ p : List Word, p ≠ [] ∧ ∀ q, (State.load c p q).runState = .running := by
  constructor
  · intro h
    refine ⟨[0], by simp, fun q => ?_⟩
    simp only [State.load]
    exact if_pos h
  · rintro ⟨p, hp, hrun⟩
    have hlen := List.length_pos_iff.2 hp
    have hload := hrun []
    simp only [State.load] at hload
    split at hload
    · exact Nat.le_trans hlen ‹_›
    · cases hload

end Sys2Proof.Machine
end

