-- ==== Sys2Proof/Laws/PerInstr.lean ====
section
/-! SUPPORT. Statements about every instruction as syntax, one lemma per constructor. Family `Selected`: the word the
encoder gives is selected by the instruction's row of the opcode table, its mask and pattern (30_encoding.md R74). -/

namespace Sys2Proof.Laws.Selected

/-- The instruction's word is selected by its own row of the opcode table. -/
def Statement (i : Instr) : Prop := i.tableRow.Selects (encode i)

theorem encRI_selects (op : Code) (rs rt : RegIndex) (v : Word) :
    encRI op rs rt v &&& 0xFC000000 = (op.setWidth 32) <<< 26 := by
  rw [and_opcode_mask, encRI_opcode]

theorem encJ_selects (op : Code) (t : Word) :
    encJ op t &&& 0xFC000000 = (op.setWidth 32) <<< 26 := by
  rw [and_opcode_mask, encJ_opcode]

theorem sll (rs rt rd : RegIndex) (shamt : Shamt) : Statement (.sll rs rt rd shamt) := encRR_and_mask _ rs rt rd shamt
theorem srl (rs rt rd : RegIndex) (shamt : Shamt) : Statement (.srl rs rt rd shamt) := encRR_and_mask _ rs rt rd shamt
theorem jr (rs rt rd : RegIndex) (shamt : Shamt) : Statement (.jr rs rt rd shamt) := encRR_and_mask _ rs rt rd shamt
theorem addu (rs rt rd : RegIndex) (shamt : Shamt) : Statement (.addu rs rt rd shamt) := encRR_and_mask _ rs rt rd shamt
theorem subu (rs rt rd : RegIndex) (shamt : Shamt) : Statement (.subu rs rt rd shamt) := encRR_and_mask _ rs rt rd shamt
theorem and (rs rt rd : RegIndex) (shamt : Shamt) : Statement (.and rs rt rd shamt) := encRR_and_mask _ rs rt rd shamt
theorem or (rs rt rd : RegIndex) (shamt : Shamt) : Statement (.or rs rt rd shamt) := encRR_and_mask _ rs rt rd shamt
theorem slt (rs rt rd : RegIndex) (shamt : Shamt) : Statement (.slt rs rt rd shamt) := encRR_and_mask _ rs rt rd shamt
theorem j (t : Word) : Statement (.j t) := encJ_selects _ t
theorem jal (t : Word) : Statement (.jal t) := encJ_selects _ t
theorem beq (rs rt : RegIndex) (v : Word) : Statement (.beq rs rt v) := encRI_selects _ rs rt v
theorem bne (rs rt : RegIndex) (v : Word) : Statement (.bne rs rt v) := encRI_selects _ rs rt v
theorem addiu (rs rt : RegIndex) (v : Word) : Statement (.addiu rs rt v) := encRI_selects _ rs rt v
theorem andi (rs rt : RegIndex) (v : Word) : Statement (.andi rs rt v) := encRI_selects _ rs rt v
theorem ori (rs rt : RegIndex) (v : Word) : Statement (.ori rs rt v) := encRI_selects _ rs rt v
theorem lui (rs rt : RegIndex) (v : Word) : Statement (.lui rs rt v) := encRI_selects _ rs rt v
theorem lw (rs rt : RegIndex) (v : Word) : Statement (.lw rs rt v) := encRI_selects _ rs rt v
theorem sw (rs rt : RegIndex) (v : Word) : Statement (.sw rs rt v) := encRI_selects _ rs rt v

end Sys2Proof.Laws.Selected
end

