-- ==== Sys2Proof/Laws/Step.lean ====
section
/-! SUPPORT. What an instruction and what a step can do, said once. -/

namespace Sys2Proof.Machine

/-- Everything an instruction that answers a next state can have done: halted for its data address, committed one
register, committed none, or stored one word. -/
theorem exec_cases {i : Instr} {s t : State} (h : exec i s = .next t) :
    (∃ r a, accessFault s.cfg a = some r ∧ t = s.halt r) ∨
    (∃ d v n, t = s.commitReg d v n) ∨
    (∃ n, t = s.commitNone n) ∨
    (∃ a v m, s.storeWord a v = .ok m ∧ t = (s.commitNone s.pcPlus4).setMem m) := by
  cases i
  case lw rs rt imm32 =>
    simp only [exec, execLw] at h
    split at h
    · cases h
      exact .inr (.inl ⟨_, _, _, rfl⟩)
    · split at h
      · rename_i r hr
        cases h
        exact .inl ⟨r, _, State.loadWord_error hr, rfl⟩
      · cases h
        exact .inr (.inl ⟨_, _, _, rfl⟩)
  case sw rs rt imm32 =>
    simp only [exec, execSw] at h
    split at h
    · cases h
      exact .inr (.inr (.inl ⟨_, rfl⟩))
    · split at h
      · rename_i r hr
        cases h
        exact .inl ⟨r, _, State.storeWord_error hr, rfl⟩
      · rename_i m hm
        cases h
        exact .inr (.inr (.inr ⟨_, _, m, hm, rfl⟩))
  case jr rs rt rd shamt =>
    cases h
    exact .inr (.inr (.inl ⟨_, rfl⟩))
  case j t' =>
    cases h
    exact .inr (.inr (.inl ⟨_, rfl⟩))
  case beq rs rt imm32 =>
    cases h
    exact .inr (.inr (.inl ⟨_, rfl⟩))
  case bne rs rt imm32 =>
    cases h
    exact .inr (.inr (.inl ⟨_, rfl⟩))
  all_goals
    cases h
    exact .inr (.inl ⟨_, _, _, rfl⟩)

/-- No instruction changes the environment's inputs or the parameters. -/
theorem exec_haltReq_cfg {i : Instr} {s t : State} (h : exec i s = .next t) :
    t.haltReq = s.haltReq ∧ t.cfg = s.cfg := by
  rcases exec_cases h with ⟨r, a, _, rfl⟩ | ⟨d, v, n, rfl⟩ | ⟨n, rfl⟩ | ⟨a, v, m, _, rfl⟩ <;> simp

/-- A step that answers a next state began in a running one and took exactly one of three ways (R102). -/
theorem step_cases {s t : State} (h : step s = .next t) :
    s.runState = .running ∧
    ((s.haltReqNow = true ∧ t = s.sampleHaltReq.halt .userRequested) ∨
     (s.haltReqNow = false ∧ ∃ r, s.sampleHaltReq.fetchDecode = .error r ∧ t = s.sampleHaltReq.halt r) ∨
     (s.haltReqNow = false ∧ ∃ i, s.sampleHaltReq.fetchDecode = .ok i ∧ exec i s.sampleHaltReq = .next t)) := by
  unfold step at h
  split at h
  · cases h
  · rename_i hrun
    refine ⟨hrun, ?_⟩
    simp only at h
    split at h
    · rename_i hq
      cases h
      exact .inl ⟨hq, rfl⟩
    · rename_i hq
      have hq' : s.haltReqNow = false := by simpa using hq
      split at h
      · rename_i r hr
        cases h
        exact .inr (.inl ⟨hq', r, hr, rfl⟩)
      · rename_i i hi
        exact .inr (.inr ⟨hq', i, hi, h⟩)

/-- Induction over runs, packaged once: what every step keeps, every run keeps. -/
theorem run_keeps {P : State → Prop} (hstep : ∀ s t, P s → step s = .next t → P t) {k : Nat} {s t : State}
    (hs : P s) (h : Host.Core.run Sys2Proof.core k s = .next t) : P t := by
  induction k generalizing s with
  | zero =>
    cases h
    exact hs
  | succ k ih =>
    simp only [Host.Core.run] at h
    split at h
    · rename_i u hu
      exact ih (hstep s u hs hu) h
    · cases h
    · cases h

end Sys2Proof.Machine
end

