-- ==== Sys2Proof/Machine/Assembler.lean ====
section
/-! DEFINITION. The assembly forms of 30_encoding.md R80 as functions to instructions, operands in the written order.
They are the spec's own notation (D14) and no behaviour of the machine; there are no pseudo-instructions (R81). -/

namespace Sys2Proof.Machine.Asm

def addu (rd rs rt : RegIndex) : Instr := .addu rs rt rd 0
def subu (rd rs rt : RegIndex) : Instr := .subu rs rt rd 0
def and (rd rs rt : RegIndex) : Instr := .and rs rt rd 0
def or (rd rs rt : RegIndex) : Instr := .or rs rt rd 0
def slt (rd rs rt : RegIndex) : Instr := .slt rs rt rd 0
def sll (rd rt : RegIndex) (shamt : Shamt) : Instr := .sll 0 rt rd shamt
def srl (rd rt : RegIndex) (shamt : Shamt) : Instr := .srl 0 rt rd shamt
def jr (rs : RegIndex) : Instr := .jr rs 0 0 0

/-- The field of a written immediate: a signed decimal or a 16-bit pattern, "the field is `imm mod 2^16`". -/
def imm (n : Int) : Option (BitVec 16) :=
  if -32768 ≤ n ∧ n ≤ 65535 then some (BitVec.ofInt 16 n) else none

def addiu (rt rs : RegIndex) (imm : BitVec 16) : Instr := .addiu rs rt (sext32 imm)
def andi (rt rs : RegIndex) (imm : BitVec 16) : Instr := .andi rs rt (sext32 imm)
def ori (rt rs : RegIndex) (imm : BitVec 16) : Instr := .ori rs rt (sext32 imm)
def lui (rt : RegIndex) (imm : BitVec 16) : Instr := .lui 0 rt (sext32 imm)
def lw (rt : RegIndex) (imm : BitVec 16) (rs : RegIndex) : Instr := .lw rs rt (sext32 imm)
def sw (rt : RegIndex) (imm : BitVec 16) (rs : RegIndex) : Instr := .sw rs rt (sext32 imm)

/-- The word offset of a label at `target` from a branch at `at`: `(target - (at + 4)) / 4`. -/
def offset (target at_ : Word) : BitVec 16 := ((target - (at_ + 4)).sshiftRight 2).setWidth 16

def beq (rs rt : RegIndex) (off : BitVec 16) : Instr := .beq rs rt (sext32 off)
def bne (rs rt : RegIndex) (off : BitVec 16) : Instr := .bne rs rt (sext32 off)

/-- "`target` is a byte address, a multiple of 4 below `2^28`". -/
def j (target : Word) : Option Instr := if ShiftedField26 target then some (.j target) else none
def jal (target : Word) : Option Instr := if ShiftedField26 target then some (.jal target) else none

end Sys2Proof.Machine.Asm
end

