-- ==== Sys2Proof/Tests/Slice0.lean ====
section
/-! SUPPORT. Tests against the spec's own examples and vectors (95_test_vectors.md: X1 to X11, V-*, PZ, P4, P5, P6), and
for each obligation with hypotheses a witness that meets them. -/

namespace Sys2Proof.Tests

open Sys2Proof Sys2Proof.Machine

/-! ### Helpers -/

/-- The reset state with a pc, some registers and some words of the array. -/
def at_ (pc : Word) (regs : List (Nat × Word)) (words : List (Nat × Word) := []) : State :=
  { State.reset with
    pc := pc
    regs := regs.foldl (fun r p => r.setIfInBounds p.1 p.2) State.reset.regs
    mem := words.foldl (fun m p => Memory.write 0 m p.1 p.2) [] }

/-- The outcome is a next state with the property. -/
def Next (o : Host.Outcome State Fault Refusal) (p : State → Bool) : Bool :=
  match o with
  | .next t => p t
  | .fault _ => false
  | .refused _ => false

theorem Next.witness {o : Host.Outcome State Fault Refusal} {p : State → Bool} (h : Next o p = true) :
    ∃ t, o = .next t ∧ p t = true := by
  cases o with
  | next t => exact ⟨t, rfl, h⟩
  | fault r => cases h
  | refused r => cases h

/-- One step on the word, fetched at the pc: it completes with `d` reported, holding `v`, at `pc`. -/
def writes (s : State) (w : Nat) (d : RegIndex) (v pc : Word) : Bool :=
  Next (step (s.withFetchWord 32 w)) fun t =>
    t.runState == .running && t.lastChanged == some d && t.reg d == v && t.pc == pc

/-- One step on the word, fetched at the pc: it completes at `pc` and writes no register. -/
def goesTo (s : State) (w : Nat) (pc : Word) : Bool :=
  Next (step (s.withFetchWord 32 w)) fun t =>
    t.runState == .running && t.lastChanged == none && t.regs == s.regs && t.pc == pc

/-- One step halts for the reason and changes nothing else. -/
def haltsWith (s : State) (r : HaltReason) : Bool :=
  Next (step s) fun t => t == { s with runState := .halted r, haltReq := s.haltReq.tail }

/-- The default machine with no memory stage attached. -/
def stub (s : State) : State := { s with cfg := { s.cfg with memStage := .stub } }

/-- The default machine with a hard-wired zero. -/
def hardwired (s : State) : State := { s with cfg := { s.cfg with zeroRegHardwired := true } }

/-! ### Ill-formed terms are refused -/

theorem test_wf_immediate_not_sign_extended : (Instr.addiu 1 2 0x00008000).wellFormed = false := by decide
theorem test_wf_immediate_not_sign_extended_lw : (Instr.lw 1 2 0xFFFF0000).wellFormed = false := by decide
theorem test_wf_immediate_sign_extended : (Instr.beq 1 2 0xFFFF8000).wellFormed = true := by decide
theorem test_wf_target_above_28_bits : (Instr.j 0x10000000).wellFormed = false := by decide
theorem test_wf_target_not_word_aligned : (Instr.jal 0x00400002).wellFormed = false := by decide
theorem test_wf_target : (Instr.jal 0x0FFFFFFC).wellFormed = true := by decide

/-! ### Decoding: words written out from the encodings of 41_ to 44_, field by field -/

theorem test_decode_sll : decode 0b000000_00111_00010_00011_00100_000000 = .instr (.sll 7 2 3 4) := by decide
theorem test_decode_srl : decode 0b000000_00000_00010_00011_11111_000010 = .instr (.srl 0 2 3 31) := by decide
theorem test_decode_jr : decode 0b000000_11111_00101_00110_00111_001000 = .instr (.jr 31 5 6 7) := by decide
theorem test_decode_addu : decode 0b000000_00001_00010_00011_11111_100001 = .instr (.addu 1 2 3 31) := by decide
theorem test_decode_subu : decode 0b000000_00001_00010_00011_00000_100011 = .instr (.subu 1 2 3 0) := by decide
theorem test_decode_and : decode 0b000000_00001_00010_00011_00000_100100 = .instr (.and 1 2 3 0) := by decide
theorem test_decode_or : decode 0b000000_00001_00010_00011_00000_100101 = .instr (.or 1 2 3 0) := by decide
theorem test_decode_slt : decode 0b000000_00001_00010_00011_00000_101010 = .instr (.slt 1 2 3 0) := by decide
theorem test_decode_j : decode 0b000010_00000100000000010000000000 = .instr (.j 0x00401000) := by decide
theorem test_decode_j_top : decode 0x0BFFFFFF = .instr (.j 0x0FFFFFFC) := by decide
theorem test_decode_jal : decode 0b000011_00000100000000000000001000 = .instr (.jal 0x00400020) := by decide
theorem test_decode_beq : decode 0b000100_00001_00010_1111111111111111 = .instr (.beq 1 2 0xFFFFFFFF) := by decide
theorem test_decode_bne : decode 0b000101_00001_00000_1111111111111101 = .instr (.bne 1 0 0xFFFFFFFD) := by decide
theorem test_decode_addiu : decode 0b001001_00001_00010_0111111111111111 = .instr (.addiu 1 2 0x7FFF) := by decide
theorem test_decode_andi : decode 0b001100_00001_00010_1111111100000000 = .instr (.andi 1 2 0xFFFFFF00) := by decide
theorem test_decode_ori : decode 0b001101_00001_00010_1000000000000000 = .instr (.ori 1 2 0xFFFF8000) := by decide
theorem test_decode_lui : decode 0b001111_01001_00010_0001001000110100 = .instr (.lui 9 2 0x1234) := by decide
theorem test_decode_lw : decode 0b100011_00001_00010_1111111111111100 = .instr (.lw 1 2 0xFFFFFFFC) := by decide
theorem test_decode_sw : decode 0b101011_00001_00010_0000000000001000 = .instr (.sw 1 2 8) := by decide

/-- V-dec: the illegal words of the table. -/
theorem test_decode_illegal_functs : ([0x00000001, 0x00000003, 0x0000000C, 0x0000000F, 0x00000020, 0x0000002B,
    0x0000003F] : List Word).all (fun w => decide (decode w = .error .illegalInstruction)) = true := by decide
theorem test_decode_illegal_opcodes : ([0xFFFFFFFF, 0xFC000000, 0x04000000, 0x18000000, 0x20010001, 0x28000000,
    0x38000000, 0x40000000, 0x84000000, 0x90000000, 0xA0000000] : List Word).all
    (fun w => decide (decode w = .error .illegalInstruction)) = true := by decide

theorem test_decodeTableWord : decodeTableWord 32 0x00221FE1 = some (.addu 1 2 3 31) := by decide

/-- V-ext. -/
theorem test_extract : extract 0x00221821 15 11 = 3 ∧ extract 0xFFFFFFFF 31 0 = 0xFFFFFFFF ∧ extract 0x80000000 31 31 = 1 ∧
    extract 0x0BFFFFFF 25 0 = 0x3FFFFFF := by decide
theorem test_sext32 : sext32 0x7FFF = 0x00007FFF ∧ sext32 0x8000 = 0xFFFF8000 ∧ sext32 0xFFFD = 0xFFFFFFFD := by decide

/-! ### The assembly forms give the words of the vectors -/

theorem test_asm_registers : encode (Asm.addu 3 1 2) = 0x00221821 ∧ encode (Asm.subu 3 1 2) = 0x00221823 ∧
    encode (Asm.and 3 1 2) = 0x00221824 ∧ encode (Asm.or 3 1 2) = 0x00221825 ∧ encode (Asm.slt 3 1 2) = 0x0022182A ∧
    encode (Asm.sll 3 2 4) = 0x00021900 ∧ encode (Asm.srl 3 2 4) = 0x00021902 ∧ encode (Asm.jr 31) = 0x03E00008 := by
  decide
theorem test_asm_immediates : encode (Asm.addiu 2 1 0xFFFF) = 0x2422FFFF ∧ encode (Asm.andi 2 1 0xFF00) = 0x3022FF00 ∧
    encode (Asm.ori 2 1 0x8000) = 0x34228000 ∧ encode (Asm.lui 2 0x1234) = 0x3C021234 ∧
    encode (Asm.lw 10 0 8) = 0x8D0A0000 ∧ encode (Asm.sw 9 0 8) = 0xAD090000 ∧
    encode (Asm.beq 10 9 1) = 0x11490001 ∧ (Asm.jal 0x00400020).map encode = some 0x0C100008 ∧
    (Asm.j 0x00401000).map encode = some 0x08100400 ∧ Asm.j 0x00401002 = none := by decide
/-- P1's backward label. -/
theorem test_asm_offset : encode (Asm.bne 1 0 (Asm.offset 0x00400008 0x00400010)) = 0x1420FFFD := by decide
theorem test_asm_imm : Asm.imm (-1) = some 0xFFFF ∧ Asm.imm 65535 = some 0xFFFF ∧ Asm.imm (-32769) = none := by decide

/-! ### One step of each instruction: the rows of V-rr, V-ri, V-ct, V-ls -/

theorem test_addu_1 : writes (at_ 0x00400000 [(1, 0x7FFFFFFF), (2, 1)]) 0x00221821 3 0x80000000 0x00400004 := by decide
theorem test_addu_3 : writes (at_ 0x00400000 [(1, 0x40000001)]) 0x00210821 1 0x80000002 0x00400004 := by decide
theorem test_subu_1 : writes (at_ 0x00400000 [(1, 0), (2, 1)]) 0x00221823 3 0xFFFFFFFF 0x00400004 := by decide
theorem test_subu_3 : writes (at_ 0x00400000 [(1, 5), (2, 3)]) 0x00221823 3 2 0x00400004 := by decide
theorem test_sll_2 : writes (at_ 0x00400000 [(2, 0xF0000001)]) 0x00021FC0 3 0x80000000 0x00400004 := by decide
theorem test_sll_3 : writes (at_ 0x00400000 [(2, 0x12345678), (7, 0xFFFFFFFF)]) 0x00E21900 3 0x23456780 0x00400004 := by
  decide
theorem test_srl_1 : writes (at_ 0x00400000 [(2, 0x12345678)]) 0x00021902 3 0x01234567 0x00400004 := by decide
theorem test_srl_2 : writes (at_ 0x00400000 [(2, 0x80000000)]) 0x00021FC2 3 0x00000001 0x00400004 := by decide
theorem test_and_1 : writes (at_ 0x00400000 [(1, 0x00400040), (2, 0xFFFFFFFE)]) 0x00221824 3 0x00400040 0x00400004 := by
  decide
theorem test_and_2 : writes (at_ 0x00400000 [(1, 0xFF00FF00), (2, 0x0FF00FF0)]) 0x00221824 3 0x0F000F00 0x00400004 := by
  decide
theorem test_or_2 : writes (at_ 0x00400000 [(1, 0xFF00FF00), (2, 0x0FF00FF0)]) 0x00221825 3 0xFFF0FFF0 0x00400004 := by
  decide
theorem test_slt_1 : writes (at_ 0x00400000 [(1, 5), (2, 7)]) 0x0022182A 3 1 0x00400004 := by decide
theorem test_slt_5 : writes (at_ 0x00400000 [(1, 0x80000000), (2, 1)]) 0x0022182A 3 0 0x00400004 := by decide
theorem test_addiu_1 : writes (at_ 0x00400000 [(1, 5)]) 0x2422FFFF 2 4 0x00400004 := by decide
theorem test_addiu_4 : writes (at_ 0x00400000 [(1, 0)]) 0x24228000 2 0xFFFF8000 0x00400004 := by decide
theorem test_andi_1 : writes (at_ 0x00400000 [(1, 0x12345678)]) 0x302200FF 2 0x78 0x00400004 := by decide
theorem test_andi_2 : writes (at_ 0x00400000 [(1, 0x12345678)]) 0x3022FF00 2 0x12345600 0x00400004 := by decide
theorem test_ori_1 : writes (at_ 0x00400000 [(1, 0x12340000)]) 0x34221234 2 0x12341234 0x00400004 := by decide
theorem test_ori_2 : writes (at_ 0x00400000 [(1, 0x12345678)]) 0x34228000 2 0xFFFFD678 0x00400004 := by decide
theorem test_lui_2 : writes (at_ 0x00400000 []) 0x3C028000 2 0x80000000 0x00400004 := by decide
theorem test_lui_3 : writes (at_ 0x00400000 [(9, 0xFFFFFFFF)]) 0x3D221234 2 0x12340000 0x00400004 := by decide
theorem test_beq_1 : goesTo (at_ 0x00400000 [(1, 9), (2, 9)]) 0x10220002 0x0040000C := by decide
theorem test_beq_5 : goesTo (at_ 0x00400000 []) 0x10008000 0x003E0004 := by decide
theorem test_bne_1 : goesTo (at_ 0x00400010 [(1, 4)]) 0x1420FFFD 0x00400008 := by decide
theorem test_bne_2 : goesTo (at_ 0x00400010 [(1, 0)]) 0x1420FFFD 0x00400014 := by decide
theorem test_j_1 : goesTo (at_ 0x00400000 []) 0x08100400 0x00401000 := by decide
theorem test_j_3 : goesTo (at_ 0x0040007C []) 0x0BFFFFFF 0x0FFFFFFC := by decide
/-- V-j-2: the upper pc bits are not kept; with the pc outside the array the instruction is run by `exec`. -/
theorem test_j_2 : Next (exec (.j 0x00401000) (at_ 0xF0400000 [])) (fun t => t.pc == 0x00401000) := by decide
theorem test_jal_1 : writes (at_ 0x00400008 [(31, 0xDEADBEEF)]) 0x0C100008 31 0x0040000C 0x00400020 := by decide
theorem test_jal_2 : writes (at_ 0x00400000 []) 0x0C000000 31 0x00400004 0x00000000 := by decide
theorem test_jr_2 : goesTo (at_ 0x00400000 [(31, 0x0040000C), (6, 1)]) 0x03E531C8 0x0040000C := by decide
theorem test_jr_3 : goesTo (at_ 0x00400000 [(1, 0x00400006)]) 0x00200008 0x00400006 := by decide
theorem test_lw_1 : writes (at_ 0x00400000 [(1, 0x00400040)] [(18, 0xCAFE0001)]) 0x8C220008 2 0xCAFE0001 0x00400004 := by
  decide
theorem test_lw_3 : writes (at_ 0x00400000 [(1, 0x00400040)] [(16, 0x00400044)]) 0x8C210000 1 0x00400044 0x00400004 := by
  decide
theorem test_sw_1 : goesTo (at_ 0x00400000 [(1, 0x00400040), (2, 0xFFFFFFFE)]) 0xAC220008 0x00400004 ∧
    Next (step ((at_ 0x00400000 [(1, 0x00400040), (2, 0xFFFFFFFE)]).withFetchWord 32 0xAC220008))
      (fun t => t.memWord 18 == 0xFFFFFFFE) := by decide
/-- V-sw-2: below the base. -/
theorem test_sw_2 : haltsWith ((at_ 0x00400000 [(1, 0x00400000)]).withFetchWord 32 0xAC22FFFC) .memoryOutOfRange := by
  decide

/-- `MEM_STAGE = stub`: V-lw-5 and V-sw-2 without a memory stage. -/
theorem test_stub_lw : writes (stub (at_ 0x00400000 [(1, 0x00400040)])) 0x8C220001 2 0x00400041 0x00400004 := by decide
theorem test_stub_sw : goesTo (stub (at_ 0x00400000 [(1, 0x00400000)])) 0xAC22FFFC 0x00400004 := by decide

/-- PZ, step 1, with the register file's zero stored and hard-wired. -/
theorem test_zero_stored : writes (at_ 0x00400000 []) 0x24000005 0 5 0x00400004 := by decide
theorem test_zero_hardwired : goesTo (hardwired (at_ 0x00400000 [])) 0x24000005 0x00400004 := by decide

/-! ### Faults: the rows of V-flt -/

theorem test_flt_1 : haltsWith (at_ 0x00400080 []) .memoryOutOfRange := by decide
theorem test_flt_2 : haltsWith (at_ 0x003FFFFC []) .memoryOutOfRange := by decide
theorem test_flt_3 : haltsWith (at_ 0x00400002 []) .addressMisaligned := by decide
theorem test_flt_4 : haltsWith (at_ 0x00500002 []) .addressMisaligned := by decide
theorem test_flt_5 : haltsWith { at_ 0x00400000 [] [(0, 0xFFFFFFFF)] with haltReq := [true] } .userRequested := by decide
theorem test_flt_6 : haltsWith (at_ 0x00400000 [] [(0, 0xFFFFFFFF)]) .illegalInstruction := by decide
theorem test_flt_7 : step { State.reset with runState := .halted .userRequested } = .fault (.halted .userRequested) := rfl
theorem test_flt_8 : (State.load Config.default (List.replicate 17 1) []).runState = .halted .programTooLarge := by decide
theorem test_flt_9 : (State.load Config.default (List.replicate 16 1) []).runState = .running ∧
    (State.load Config.default (List.replicate 16 1) []).pc = 0x00400000 ∧
    (State.load Config.default (List.replicate 16 1) []).memWord 15 = 1 := by decide

/-! ### The constraints of R195 -/

/-- The defaults meet all four; a code whose last word is at `0x0FFFFFFC` is in reach, one word more is not. -/
theorem test_constraints : Config.default.WF ∧ Config.default.JumpsReach 16 ∧ Config.default.Loadable ∧
    ({ Config.default with textBase := 0x0FFFFFFC } : Config).JumpsReach 1 ∧
    ¬ ({ Config.default with textBase := 0x0FFFFFFC } : Config).JumpsReach 2 ∧
    ¬ ({ Config.default with maxInstrWords := 0 } : Config).Loadable := by decide

/-! ### Fetch word, codes, inspection -/

/-- A pending halt request and a halted machine do not keep the placed word from running. -/
theorem test_withFetchWord : writes { State.reset with haltReq := [true, true], runState := .halted .illegalInstruction }
    0x24010005 1 5 0x00400004 := by decide
theorem test_codes : RunState.code .running = 0 ∧ RunState.code (.halted .illegalInstruction) = 1 ∧
    RunState.code (.halted .memoryOutOfRange) = 2 ∧ RunState.code (.halted .programTooLarge) = 3 ∧
    RunState.code (.halted .userRequested) = 4 ∧ RunState.code (.halted .addressMisaligned) = 5 := by decide
theorem test_inspect : (at_ 0x00400008 [(31, 7)]).inspect.x[31] = 7 ∧ (at_ 0x00400008 [(31, 7)]).inspect.pc = 0x00400008 ∧
    (hardwired (at_ 0 [(0, 9)])).inspect.x[0] = 0 ∧ State.reset.capacity = 16 := by decide
/-- Writing the fill removes the entry; equal memories are equal data. -/
theorem test_memory_canonical : Memory.write 0 (Memory.write 0 [(2, 5)] 1 7) 1 0 = [(2, 5)] := by decide

/-! ### Witnesses: states and operands that meet the hypotheses of an obligation, one theorem for each

Where a statement has clauses, the witness takes a boundary value for each. Each is named after its obligation. -/

/-- The admissible constants with the two jump opcodes exchanged: a second choice that R71 allows. -/
def swapped : Codes := { Codes.mips32 with opJ := 3, opJal := 2 }

theorem witness_ExtractIsShiftAndMask : (0 ≤ 31 ∧ 31 ≤ 31) ∧ (31 ≤ 31 ∧ 31 ≤ 31) ∧ (0 ≤ 0 ∧ 0 ≤ 31) := by decide
theorem witness_FormatIsSelectedByOpcode :
    (decodeWith Codes.mips32 0x00221821 = .instr (.addu 1 2 3 0) ∧ extract 0x00221821 31 26 = 0) ∧
    (decodeWith swapped 0x0C100008 = .instr (.j 0x00400020) ∧ extract 0x0C100008 31 26 = 3) ∧
    (decodeWith Codes.mips32 0xAC220008 = .instr (.sw 1 2 8) ∧ extract 0xAC220008 31 26 = 0x2B) := by decide
theorem witness_DecodeOfEncodeIsIdentity : Codes.mips32.Admissible ∧ swapped.Admissible ∧
    (Instr.jal 0x0FFFFFFC).WellFormed ∧ (Instr.andi 1 2 0xFFFF8000).WellFormed ∧ (Instr.jr 31 5 6 7).WellFormed := by
  decide
theorem witness_EncodeOfDecodeIsIdentity : decodeWith swapped 0x0C100008 = .instr (.j 0x00400020) := by decide
theorem witness_TableRowsSelectTheDecodedInstruction : decode 0x00221FE1 = .instr (.addu 1 2 3 31) ∧
    (0x00221FE1 : Word) &&& (Instr.addu 9 9 9 9).tableRow.mask = (Instr.addu 9 9 9 9).tableRow.pattern := by decide
theorem witness_IllegalWordsAreThoseOfTheCharts : decode 0x0000002B = .error .illegalInstruction ∧
    decode 0xA0000000 = .error .illegalInstruction ∧ decode 0x0000002A ≠ .error .illegalInstruction := by decide

/-- The premise on the constants in every per-instruction statement. -/
theorem witness_per_instruction : Codes.mips32.Admissible ∧
    decodeWith Codes.mips32 ((0 : Code) ++ (1 : RegIndex) ++ (2 : RegIndex) ++ (3 : RegIndex) ++ (31 : Shamt) ++
      Codes.mips32.fnAddu) = .instr (.addu 1 2 3 31) := by decide

/-- The extreme differences that fit, and one past each end (V-slt-5, V-slt-6). -/
theorem witness_SltIsSignedCompareOrItsOppositeOnOverflow :
    (0x80000000 : Word).toInt - (0 : Word).toInt = -2 ^ 31 ∧ (0x7FFFFFFF : Word).toInt - (0 : Word).toInt = 2 ^ 31 - 1 ∧
    (0x80000000 : Word).toInt - (1 : Word).toInt < -2 ^ 31 ∧
    2 ^ 31 - 1 < (0x7FFFFFFF : Word).toInt - (0xFFFFFFFF : Word).toInt := by decide

theorem witness_JrAfterJalReturnsToNextWord :
    ∃ t, exec (.jal 0x00400020) (at_ 0x00400008 []) = .next t ∧ (at_ 0x00400028 [(31, 0x0040000C)]).reg 31 = t.reg 31 :=
  ⟨_, rfl, by decide⟩

/-- The last word of the array (V-lw-6) and its first. -/
theorem witness_LwLoadsTheWordAtEffectiveAddress :
    let s := at_ 0x00400000 [(1, 0x00400000)]
    s.cfg.memStage = .ram ∧
    (s.effectiveAddress 1 (sext32 0x7C)).toNat % 4 = 0 ∧
    (s.effectiveAddress 1 (sext32 0x7C)).toNat + 4 = s.cfg.textBase.toNat + 4 * s.cfg.nWords ∧
    (s.effectiveAddress 1 (sext32 0)).toNat = s.cfg.textBase.toNat := by decide
/-- V-sw-1, and -4 from the data segment: the last word of the instruction segment. -/
theorem witness_SwStoresTheWordAtEffectiveAddress :
    let s := at_ 0x00400000 [(1, 0x00400040), (2, 0xFFFFFFFE)] [(18, 0xCAFE0001)]
    s.cfg.memStage = .ram ∧ Memory.wf s.cfg s.mem ∧
    (s.effectiveAddress 1 (sext32 8)).toNat = 0x00400048 ∧ (s.effectiveAddress 1 (sext32 0xFFFC)).toNat = 0x0040003C ∧
    s.cfg.textBase.toNat ≤ 0x0040003C ∧ 0x00400048 < s.cfg.textBase.toNat + 4 * s.cfg.nWords := by decide

/-- Misaligned: in range at the fetch, out of range at the fetch, and a data address (V-flt-3, V-flt-4, V-lw-5). -/
theorem witness_MisalignedAccessHalts :
    let s := at_ 0x00400002 []
    let s' := at_ 0x00500002 []
    let d := at_ 0x00400000 [(1, 0x00400040)]
    (s.runState = .running ∧ s.haltReqNow = false ∧ s.pc.toNat % 4 ≠ 0) ∧
    (s'.runState = .running ∧ s'.haltReqNow = false ∧ s'.pc.toNat % 4 ≠ 0) ∧
    (d.cfg.memStage = .ram ∧ (d.effectiveAddress 1 (sext32 1)).toNat % 4 ≠ 0) := by decide
/-- Out of range: one word past the array and one word below it, at the fetch and as a data address (V-flt-1, V-flt-2,
V-lw-4, V-sw-2). -/
theorem witness_OutOfRangeAccessHalts :
    let s := at_ 0x00400080 [(1, 0x00400000)]
    let s' := at_ 0x003FFFFC []
    (s.runState = .running ∧ s.haltReqNow = false ∧ s.pc.toNat % 4 = 0 ∧
      s.cfg.textBase.toNat + 4 * s.cfg.nWords ≤ s.pc.toNat) ∧
    (s'.runState = .running ∧ s'.haltReqNow = false ∧ s'.pc.toNat % 4 = 0 ∧ s'.pc.toNat < s'.cfg.textBase.toNat) ∧
    (s.cfg.memStage = .ram ∧ (s.effectiveAddress 1 (sext32 0x80)).toNat % 4 = 0 ∧
      s.cfg.textBase.toNat + 4 * s.cfg.nWords ≤ (s.effectiveAddress 1 (sext32 0x80)).toNat) ∧
    ((s.effectiveAddress 1 (sext32 0xFFFC)).toNat % 4 = 0 ∧
      (s.effectiveAddress 1 (sext32 0xFFFC)).toNat < s.cfg.textBase.toNat) := by decide
theorem witness_StubStageMakesNoAccess : (stub (at_ 0x00400000 [(1, 0x00400000)])).cfg.memStage = .stub := by decide
theorem witness_IndexAndAddressAreInverse : Config.default.WF ∧ 31 < Config.default.nWords ∧
    aligned 0x0040007C = true ∧ inRange Config.default 0x0040007C = true ∧ aligned 0x00400000 = true ∧
    inRange Config.default 0x00400000 = true := by decide

/-- A store at `0x00400048` read back by a load through another register and offset. -/
theorem witness_LoadAfterStoreReadsTheStoredWord :
    let s := at_ 0x00400000 [(1, 0x00400040), (2, 0xFFFFFFFE), (5, 0x0040004C)]
    s.cfg.memStage = .ram ∧ Memory.wf s.cfg s.mem ∧ s.runState = .running ∧
    ∃ t, exec (.sw 1 2 (sext32 8)) s = .next t ∧ t.runState = .running ∧
      t.effectiveAddress 5 (sext32 0xFFFC) = s.effectiveAddress 1 (sext32 8) ∧ ¬ t.IsZeroReg 3 :=
  ⟨by decide, by decide, by decide, _, rfl, by decide, by decide, by decide⟩
/-- P6 in small: the word after the store is the one stored to. -/
theorem witness_StoreIsSeenByTheNextFetch :
    let s := at_ 0x00400010 [(1, 0x00400000), (2, 0x24030007)]
    s.cfg.memStage = .ram ∧ Memory.wf s.cfg s.mem ∧ s.runState = .running ∧
    ∃ t, exec (.sw 1 2 (sext32 0x14)) s = .next t ∧ t.runState = .running ∧
      s.effectiveAddress 1 (sext32 0x14) = t.pc ∧ t.fetchDecode.toOption = some (.addiu 0 3 7) :=
  ⟨by decide, by decide, by decide, _, rfl, by decide, by decide, by decide⟩

/-- The last word of the array. -/
theorem witness_StepRunsTheDecodedInstruction :
    let s := at_ 0x0040007C [] [(31, 0x24010005)]
    s.runState = .running ∧ s.haltReqNow = false ∧ s.pc.toNat % 4 = 0 ∧ s.cfg.textBase.toNat ≤ s.pc.toNat ∧
    s.pc.toNat + 4 = s.cfg.textBase.toNat + 4 * s.cfg.nWords ∧
    decodeWith s.cfg.codes (s.memWord ((s.pc.toNat - s.cfg.textBase.toNat) / 4)) = .instr (.addiu 0 1 5) := by decide
theorem witness_HaltRequestStopsBeforeFetch : State.reset.runState = .running ∧
    ({ State.reset with haltReq := [true, false] } : State).haltReq.head? = some true := by decide
theorem witness_IllegalWordHaltsWithoutMutation :
    let s := at_ 0x00400000 [] [(0, 0xFFFFFFFF)]
    s.runState = .running ∧ s.haltReqNow = false ∧ aligned s.pc = true ∧ inRange s.cfg s.pc = true ∧
    decodeWith s.cfg.codes (s.memWord (index s.cfg s.pc)) = .error .illegalInstruction := by decide
theorem witness_StepExistsExactlyWhenRunning : (∃ t, step State.reset = .next t) ∧
    ({ State.reset with runState := .halted .programTooLarge } : State).runState = .halted .programTooLarge :=
  ⟨⟨_, rfl⟩, rfl⟩
theorem witness_HaltingStepChangesOnlyRunState : ∃ t, step (at_ 0x00400080 []) = .next t ∧ t.runState ≠ .running :=
  ⟨_, rfl, by decide⟩
/-- Each stage that can fail, and none. -/
theorem witness_StepFollowsTheStageTable :
    Datapath.stageFault { State.reset with haltReq := [true] } = some .userRequested ∧
    Datapath.stageFault (at_ 0x00500002 []) = some .addressMisaligned ∧
    Datapath.stageFault (at_ 0x00400080 []) = some .memoryOutOfRange ∧
    Datapath.stageFault (at_ 0x00400000 [] [(0, 0xFFFFFFFF)]) = some .illegalInstruction ∧
    Datapath.stageFault (at_ 0x00400000 [(1, 0x00400040)] [(0, 0x8C220001)]) = some .addressMisaligned ∧
    Datapath.stageFault (at_ 0x00400000 [(1, 0x00400040)] [(0, 0xAC220040)]) = some .memoryOutOfRange ∧
    Datapath.stageFault State.reset = none := by decide

theorem witness_OnlyTheDestinationRegisterChanges :
    ∃ t, exec (.lui 9 2 0x1234) State.reset = .next t ∧ State.reset.runState = .running ∧ t.runState = .running ∧
      Datapath.destination (.lui 9 2 0x1234) = some 2 ∧ Datapath.destination (.sw 1 2 8) = none :=
  ⟨_, rfl, by decide⟩
/-- Two states that differ in register 7, the run state and the halt input, and agree on the sources of an `addu`. -/
theorem witness_ResultDependsOnlyOnTheSources :
    let s := at_ 0x00400000 [(1, 5), (2, 6)]
    let s' : State := { at_ 0x00400000 [(1, 5), (2, 6), (7, 9)] with haltReq := [true] }
    s'.pc = s.pc ∧ s'.mem = s.mem ∧ s'.cfg = s.cfg ∧
    ∀ r ∈ Datapath.sources (.addu 1 2 3 0), s'.reg r = s.reg r := by decide
theorem witness_OnlyFiveInstructionsTransferControl : ∃ t, exec (.lw 1 2 1) (at_ 0x00400000 []) = .next t :=
  ⟨_, rfl⟩
theorem witness_OnlySwChangesMemory :
    let s := at_ 0x00400000 [(1, 0x00400040), (2, 0xFFFFFFFE)] [(0, 0xAC220008)]
    s.Inv ∧ ∃ t, step s = .next t ∧ t.memWord 18 ≠ s.memWord 18 :=
  ⟨⟨by decide, by decide, by decide, by decide⟩, _, rfl, by decide⟩
/-- X11: `addiu $2,$1,3` twice in a row. -/
theorem witness_RepeatedWritesDoNotAccumulate :
    Datapath.destination (.addiu 1 2 3) = some 2 ∧ (2 : RegIndex) ∉ Datapath.sources (.addiu 1 2 3) ∧
    (∀ a, Instr.addiu 1 2 3 ≠ .jal a) ∧
    ∃ t u, exec (.addiu 1 2 3) (at_ 0x00400000 [(1, 5)]) = .next t ∧ exec (.addiu 1 2 3) t = .next u ∧ u.reg 2 = 8 :=
  ⟨by decide, by decide, (fun _ h => by cases h), _, _, rfl, rfl, by decide⟩
theorem witness_LastChangedIsAnOutputOnly : State.reset.runState = .running := rfl
/-- Both ends of the conclusion: a step that stays aligned, and the `jr` of V-jr-3 that does not. -/
theorem witness_OnlyJrCanMisalignThePc :
    (State.reset.pc.toNat % 4 = 0 ∧ ∃ t, step State.reset = .next t ∧ t.pc.toNat % 4 = 0) ∧
    ∃ t, step (at_ 0x00400000 [(1, 0x00400006)] [(0, 0x00200008)]) = .next t ∧ t.pc.toNat % 4 ≠ 0 :=
  ⟨⟨by decide, _, rfl, by decide⟩, _, rfl, by decide⟩
/-- PZ with the hard-wired zero. -/
theorem witness_HardwiredZeroIsNeverWritten :
    (hardwired (at_ 0x00400000 [] [(0, 0x24000005)])).cfg.zeroRegHardwired = true ∧
    ∃ t, step (hardwired (at_ 0x00400000 [] [(0, 0x24000005)])) = .next t ∧ t.runState = .running :=
  ⟨by decide, _, rfl, by decide⟩
theorem witness_StepTakesOneInputAndKeepsParameters :
    ∃ t, step { State.reset with haltReq := [false, true] } = .next t ∧ t.haltReq = [true] := ⟨_, rfl, rfl⟩
/-- Safe after a completed step and after a halt request, not after a fault. -/
theorem witness_SafetyIsLostOnlyByAFailedStage :
    (∃ t, step State.reset = .next t ∧ t.runState = .running) ∧
    (∃ t, step { State.reset with haltReq := [true] } = .next t ∧ t.runState = .halted .userRequested) ∧
    (∃ t, step (at_ 0x00400080 []) = .next t ∧ t.runState = .halted .memoryOutOfRange) :=
  ⟨⟨_, rfl, by decide⟩, ⟨_, rfl, rfl⟩, ⟨_, rfl, by decide⟩⟩
/-- P4's capacities, and the stub stage and hard-wired zero. -/
theorem witness_LoadMeetsTheInvariant : Config.default.WF ∧
    ({ Config.default with maxInstrWords := 2, maxDataWords := 1 } : Config).WF ∧
    ({ Config.default with memStage := .stub, zeroRegHardwired := true } : Config).WF := by decide
/-- A storing step from a state that meets the invariant, with the hard-wired zero. -/
theorem witness_StepKeepsTheInvariant :
    let s := hardwired (at_ 0x00400000 [(1, 0x00400040), (2, 7)] [(0, 0xAC220008), (18, 7)])
    s.Inv ∧ ∃ t, step s = .next t :=
  ⟨⟨by decide, by decide, by decide, by decide⟩, _, rfl⟩
/-- A program of exactly the capacity and one of one word more (V-flt-8, V-flt-9). -/
theorem witness_LoadGivesTheStateOfTheSpec : (List.replicate 16 (1 : Word)).length ≤ Config.default.maxInstrWords ∧
    Config.default.maxInstrWords < (List.replicate 17 (1 : Word)).length := by decide
/-- P4 after its second step: one zero word is left before the end, at the default base and at base 0; and reset, with
all 32 words to go. -/
theorem witness_RunningOffTheEndHalts :
    let c : Config := { Config.default with maxInstrWords := 2, maxDataWords := 1 }
    let s := { State.load c [0x24010007, 0x00211021] [] with pc := 0x00400008 }
    let z := { State.load { c with textBase := 0 } [0x24010007, 0x00211021] [] with pc := 8 }
    (s.cfg.WF ∧ s.cfg.codes.fnSll = 0 ∧ s.cfg.nWords < 2 ^ 30 ∧ s.runState = .running ∧
      (∀ b ∈ s.haltReq, b = false) ∧ s.pc.toNat % 4 = 0 ∧ s.cfg.textBase.toNat ≤ s.pc.toNat ∧
      s.pc.toNat + 4 * 1 = s.cfg.textBase.toNat + 4 * s.cfg.nWords ∧
      index s.cfg s.pc = 2 ∧ s.cfg.nWords = 3 ∧ s.memWord 2 = 0) ∧
    (z.cfg.WF ∧ z.pc.toNat + 4 * 1 = z.cfg.textBase.toNat + 4 * z.cfg.nWords ∧ z.memWord 2 = 0) ∧
    (State.reset.pc.toNat + 4 * 32 = State.reset.cfg.textBase.toNat + 4 * State.reset.cfg.nWords ∧
      ∀ k, State.reset.memWord k = 0) :=
  ⟨by decide, by decide, by decide, fun _ => rfl⟩

end Sys2Proof.Tests
end

section
/-! SUPPORT. The statements about the state and its invariant (10_state.md), and the rules they rest on: the equations of
`step`, what `lw` and `sw` can do, where an instruction can leave the pc, and that it sees nothing but its sources. -/

namespace Sys2Proof.Machine

/-! ### The step, one equation per stage that ends it (R102) -/

/-- Taking a value of the halt input does not change what is fetched. -/
@[simp] theorem State.sampleHaltReq_fetchDecode (s : State) : s.sampleHaltReq.fetchDecode = s.fetchDecode := rfl

theorem step_eq_of_haltReqNow {s : State} (hrun : s.runState = .running) (hq : s.haltReqNow = true) :
    step s = .next (s.sampleHaltReq.halt .userRequested) := by
  simp [step, hrun, hq]

theorem step_eq_of_fetchDecode_error {s : State} {r : HaltReason} (hrun : s.runState = .running)
    (hq : s.haltReqNow = false) (hf : s.fetchDecode = .error r) :
    step s = .next (s.sampleHaltReq.halt r) := by
  simp [step, hrun, hq, hf]

theorem step_eq_of_fetchDecode_ok {s : State} {i : Instr} (hrun : s.runState = .running)
    (hq : s.haltReqNow = false) (hf : s.fetchDecode = .ok i) :
    step s = exec i s.sampleHaltReq := by
  simp [step, hrun, hq, hf]

/-- A step either halts the machine, changing nothing else, or runs the instruction it fetched (R102, R103). -/
theorem step_halts_or_execs {s t : State} (h : step s = .next t) :
    (∃ r, t = s.sampleHaltReq.halt r) ∨ (∃ i, s.fetchDecode = .ok i ∧ exec i s.sampleHaltReq = .next t) := by
  obtain ⟨-, ⟨-, ht⟩ | ⟨-, r, -, ht⟩ | ⟨-, i, hi, ht⟩⟩ := step_cases h
  · exact .inl ⟨_, ht⟩
  · exact .inl ⟨r, ht⟩
  · exact .inr ⟨i, hi, ht⟩

/-! ### Load and store, inverted once -/

theorem exec_lw_cases {s t : State} {rs rt : RegIndex} {v : Word} (h : exec (.lw rs rt v) s = .next t) :
    (∃ r, t = s.halt r) ∨ ∃ w, t = s.commitReg rt w s.pcPlus4 := by
  simp only [exec, execLw] at h
  split at h
  · cases h
    exact .inr ⟨_, rfl⟩
  · split at h <;> cases h
    · exact .inl ⟨_, rfl⟩
    · exact .inr ⟨_, rfl⟩

theorem exec_sw_cases {s t : State} {rs rt : RegIndex} {v : Word} (h : exec (.sw rs rt v) s = .next t) :
    (∃ r, t = s.halt r) ∨ t = s.commitNone s.pcPlus4 ∨
    ∃ m, s.cfg.memStage = .ram ∧ s.storeWord (s.effectiveAddress rs v) (s.reg rt) = .ok m ∧
      t = (s.commitNone s.pcPlus4).setMem m := by
  simp only [exec, execSw] at h
  split at h
  · cases h
    exact .inr (.inl rfl)
  · rename_i hram
    split at h <;> cases h
    · exact .inl ⟨_, rfl⟩
    · exact .inr (.inr ⟨_, hram, ‹_›, rfl⟩)

/-! ### The invariant -/

/-- A commit never changes the stored word of a hard-wired register 0 (R23, R99). -/
theorem State.commitReg_regs_zero {s : State} (hz : s.cfg.zeroRegHardwired = true) (d : RegIndex) (v n : Word) :
    (s.commitReg d v n).regs[0] = s.regs[0] := by
  rw [State.commitReg_regs]
  split
  · rfl
  · rename_i hd
    have hne : d.toNat ≠ 0 := fun h0 => hd ⟨hz, BitVec.eq_of_toNat_eq h0⟩
    exact Vector.getElem_set_ne _ _ hne

/-- A commit never reports a hard-wired register 0 (R99). -/
theorem State.commitReg_lastChanged_ne_zero {s : State} (hz : s.cfg.zeroRegHardwired = true) (d : RegIndex)
    (v n : Word) : (s.commitReg d v n).lastChanged ≠ some 0 := by
  rw [State.commitReg_lastChanged]
  split
  · exact nofun
  · rename_i hd
    exact fun h0 => hd ⟨hz, Option.some.inj h0⟩

/-- The hard-wired zero reads 0, whatever is stored (R23). -/
theorem State.reg_zero_of_hardwired {s : State} (hz : s.cfg.zeroRegHardwired = true) : s.reg 0 = 0 :=
  if_pos ⟨hz, rfl⟩

theorem State.Inv.sampleHaltReq {s : State} (h : s.Inv) : s.sampleHaltReq.Inv :=
  ⟨h.cfg_wf, h.mem_wf, h.zero_unwritten, h.zero_unreported⟩

theorem State.Inv.halt {s : State} (h : s.Inv) (r : HaltReason) : (s.halt r).Inv :=
  ⟨h.cfg_wf, h.mem_wf, h.zero_unwritten, h.zero_unreported⟩

theorem State.Inv.commitNone {s : State} (h : s.Inv) (n : Word) : (s.commitNone n).Inv :=
  ⟨h.cfg_wf, h.mem_wf, h.zero_unwritten, fun _ => nofun⟩

theorem State.Inv.setMem {s : State} (h : s.Inv) {m : Memory} (hm : Memory.wf s.cfg m) : (s.setMem m).Inv :=
  ⟨h.cfg_wf, hm, h.zero_unwritten, h.zero_unreported⟩

theorem State.Inv.commitReg {s : State} (h : s.Inv) (d : RegIndex) (v n : Word) : (s.commitReg d v n).Inv where
  cfg_wf := by
    rw [State.commitReg_cfg]
    exact h.cfg_wf
  mem_wf := by
    rw [State.commitReg_cfg, State.commitReg_mem]
    exact h.mem_wf
  zero_unwritten := by
    rw [State.commitReg_cfg]
    intro hz
    rw [State.commitReg_regs_zero hz]
    exact h.zero_unwritten hz
  zero_unreported := by
    rw [State.commitReg_cfg]
    intro hz
    exact State.commitReg_lastChanged_ne_zero hz d v n

/-- Every instruction keeps the invariant. -/
theorem exec_keeps_inv {i : Instr} {s t : State} (hs : s.Inv) (h : exec i s = .next t) : t.Inv := by
  obtain ⟨r, -, -, rfl⟩ | ⟨d, v, n, rfl⟩ | ⟨n, rfl⟩ | ⟨a, v, m, hm, rfl⟩ := exec_cases h
  · exact hs.halt r
  · exact hs.commitReg d v n
  · exact hs.commitNone n
  · exact (hs.commitNone _).setMem (State.storeWord_wf hm hs.mem_wf)

/-- Settles O58: a step is a halt or an instruction at a state with one halt input taken, and each keeps the invariant. -/
theorem stepKeepsTheInvariant : Obligations.StepKeepsTheInvariant := by
  intro s t hs h
  obtain ⟨r, rfl⟩ | ⟨i, -, hexec⟩ := step_halts_or_execs h
  · exact hs.sampleHaltReq.halt r
  · exact exec_keeps_inv hs.sampleHaltReq hexec

/-- Settles O56: the invariant of the one fixed state, clause by clause. -/
theorem resetMeetsTheInvariant : Obligations.ResetMeetsTheInvariant where
  cfg_wf := by decide
  mem_wf := reset_mem_wf
  zero_unwritten := fun _ => rfl
  zero_unreported := fun _ => nofun

/-- Settles O53: the only write of a register is a commit, which leaves a hard-wired register 0 alone. -/
theorem hardwiredZeroIsNeverWritten : Obligations.HardwiredZeroIsNeverWritten := by
  intro s t hz h
  suffices ht : t.cfg = s.cfg ∧ t.regs[0] = s.regs[0] ∧ (t.runState = .running → t.lastChanged ≠ some 0) by
    obtain ⟨hcfg, hregs, hreport⟩ := ht
    exact ⟨State.reg_zero_of_hardwired hz, State.reg_zero_of_hardwired (hcfg ▸ hz), hregs, hreport⟩
  obtain ⟨r, rfl⟩ | ⟨i, -, hexec⟩ := step_halts_or_execs h
  · exact ⟨rfl, rfl, nofun⟩
  · obtain ⟨r, -, -, rfl⟩ | ⟨d, v, n, rfl⟩ | ⟨n, rfl⟩ | ⟨-, -, m, -, rfl⟩ := exec_cases hexec
    · exact ⟨rfl, rfl, nofun⟩
    · have hz' : s.sampleHaltReq.cfg.zeroRegHardwired = true := hz
      exact ⟨State.commitReg_cfg _ d v n, State.commitReg_regs_zero hz' d v n,
        fun _ => State.commitReg_lastChanged_ne_zero hz' d v n⟩
    · exact ⟨rfl, rfl, fun _ => nofun⟩
    · exact ⟨rfl, rfl, fun _ => nofun⟩

/-! ### The array: indices and addresses, who writes it, what the load leaves in it -/

/-- Settles O36: for legal parameters no address sum wraps, so both directions are division by 4. -/
theorem indexAndAddressAreInverse : Obligations.IndexAndAddressAreInverse := by
  intro c hc
  have hbase : c.textBase.toNat % 4 = 0 := hc.1
  refine ⟨fun i hi => ?_, fun a hal hin => ⟨index_lt hin, BitVec.eq_of_toNat_eq ?_⟩⟩
  · rw [aligned_iff, inRange_iff, index, addressOf_toNat hc hi]
    omega
  · rw [addressOf_toNat hc (index_lt hin), index]
    rw [aligned_iff] at hal
    have hge := ((inRange_iff c a).1 hin).1
    omega

/-- An instruction leaves the memory as it is, or it is a `sw` with `ram` that passed its checks (R45, R55). -/
theorem exec_mem_cases {i : Instr} {s t : State} (h : exec i s = .next t) :
    t.mem = s.mem ∨ ∃ rs rt v, i = .sw rs rt v ∧ s.cfg.memStage = .ram ∧
      s.storeWord (s.effectiveAddress rs v) (s.reg rt) = .ok t.mem := by
  cases i
  case lw =>
    obtain ⟨r, rfl⟩ | ⟨w, rfl⟩ := exec_lw_cases h
    · exact .inl rfl
    · exact .inl (State.commitReg_mem ..)
  case sw rs rt v =>
    obtain ⟨r, rfl⟩ | rfl | ⟨m, hram, hm, rfl⟩ := exec_sw_cases h
    · exact .inl rfl
    · exact .inl rfl
    · exact .inr ⟨rs, rt, v, rfl, hram, hm⟩
  case jr | j | beq | bne =>
    cases h
    exact .inl rfl
  all_goals
    cases h
    exact .inl (State.commitReg_mem ..)

/-- Settles O49: memory changes in a `sw` only, and read after write confines the change to its index. -/
theorem onlySwChangesMemory : Obligations.OnlySwChangesMemory := by
  intro s t k hs h hk
  obtain ⟨r, rfl⟩ | ⟨i, hi, hexec⟩ := step_halts_or_execs h
  · exact absurd rfl hk
  have hcfg : t.cfg = s.cfg := (exec_haltReq_cfg hexec).2
  obtain hmem | ⟨rs, rt, v, rfl, hram, hstore⟩ := exec_mem_cases hexec
  · exact absurd (by simp [State.memWord, hmem, hcfg]) hk
  · have hmem := (State.storeWord_ok hstore).2
    have hread : t.memWord k =
        if k = index s.cfg (s.effectiveAddress rs v) then s.reg rt else s.memWord k := by
      rw [State.memWord, hcfg, hmem]
      exact Memory.read_write hs.mem_wf.1 _ _ _
    by_cases hidx : k = index s.cfg (s.effectiveAddress rs v)
    · exact ⟨rs, rt, v, hi, hram, hidx, by rw [hread, if_pos hidx]⟩
    · exact absurd (by rw [hread, if_neg hidx]) hk

/-- A program that fits is loaded and the machine runs (R190, R191). -/
theorem State.load_of_fits {c : Config} {p : List Word} (q : List Bool) (h : p.length ≤ c.maxInstrWords) :
    (State.load c p q).runState = .running ∧ ∀ k, (State.load c p q).memWord k = p.getD k c.memFill := by
  refine ⟨if_pos h, fun k => ?_⟩
  have hmem : (State.load c p q).mem = Memory.loadFrom c.memFill 0 p := if_pos h
  rw [State.memWord, hmem, ← Memory.read_loadFrom c.memFill p 0 k, Nat.zero_add]
  rfl

/-- A program that does not fit is rejected whole (R192, D19). -/
theorem State.load_of_too_long {c : Config} {p : List Word} (q : List Bool) (h : c.maxInstrWords < p.length) :
    (State.load c p q).runState = .halted .programTooLarge ∧ ∀ k, (State.load c p q).memWord k = c.memFill := by
  have hmem : (State.load c p q).mem = [] := if_neg (by omega)
  refine ⟨if_neg (by omega), fun k => ?_⟩
  rw [State.memWord, hmem]
  rfl

/-- Settles O59: the two lemmas on the load, and that a halted machine has no step. -/
theorem loadGivesTheStateOfTheSpec : Obligations.LoadGivesTheStateOfTheSpec := by
  intro c p q
  refine ⟨rfl, rfl, rfl, fun hfit => ?_, fun hlong => ?_⟩
  · obtain ⟨hrun, hmem⟩ := State.load_of_fits q hfit
    refine ⟨hrun, fun k hk => ?_, fun k hk => ?_⟩
    · rw [hmem, List.getD_eq_getElem _ _ hk]
    · rw [hmem, List.getD_eq_default _ _ hk]
  · obtain ⟨hhalt, hmem⟩ := State.load_of_too_long q hlong
    refine ⟨hhalt, hmem, fun t ht => ?_⟩
    have hrun := (step_cases ht).1
    rw [hhalt] at hrun
    cases hrun

/-! ### What an instruction looks at -/

theorem State.effectiveAddress_congr {s s' : State} {rs : RegIndex} (h : s'.reg rs = s.reg rs) (v : Word) :
    s'.effectiveAddress rs v = s.effectiveAddress rs v := by
  rw [State.effectiveAddress, h, State.effectiveAddress]

theorem State.loadWord_congr {s s' : State} (hmem : s'.mem = s.mem) (hcfg : s'.cfg = s.cfg) (a : Word) :
    s'.loadWord a = s.loadWord a := by
  simp only [State.loadWord, State.memWord, hmem, hcfg]

theorem State.storeWord_congr {s s' : State} (hmem : s'.mem = s.mem) (hcfg : s'.cfg = s.cfg) (a v : Word) :
    s'.storeWord a v = s.storeWord a v := by
  simp only [State.storeWord, hmem, hcfg]

/-- Two states that agree on the pc, the memory, the parameters and the registers an instruction reads (R25) get the same
update from it: the same halt, the same write of its destination, the same jump, or the same store. -/
theorem exec_congr {i : Instr} {s s' : State} (hpc : s'.pc = s.pc) (hmem : s'.mem = s.mem) (hcfg : s'.cfg = s.cfg)
    (hsrc : ∀ r ∈ Datapath.sources i, s'.reg r = s.reg r) :
    (∃ r, exec i s = .next (s.halt r) ∧ exec i s' = .next (s'.halt r)) ∨
    (∃ d v n, Datapath.destination i = some d ∧
      exec i s = .next (s.commitReg d v n) ∧ exec i s' = .next (s'.commitReg d v n)) ∨
    (Datapath.destination i = none ∧ ∃ n, exec i s = .next (s.commitNone n) ∧ exec i s' = .next (s'.commitNone n)) ∨
    (Datapath.destination i = none ∧ ∃ n m,
      exec i s = .next ((s.commitNone n).setMem m) ∧ exec i s' = .next ((s'.commitNone n).setMem m)) := by
  have hnext : s'.pcPlus4 = s.pcPlus4 := by rw [State.pcPlus4, hpc, State.pcPlus4]
  cases i
  case lw rs rt v =>
    have hrs : s'.reg rs = s.reg rs := hsrc rs (by simp [Datapath.sources])
    simp only [exec, execLw, hcfg, State.effectiveAddress_congr hrs, State.loadWord_congr hmem hcfg, hnext]
    cases s.cfg.memStage with
    | stub => exact .inr (.inl ⟨_, _, _, rfl, rfl, rfl⟩)
    | ram =>
      cases s.loadWord (s.effectiveAddress rs v) with
      | error r => exact .inl ⟨r, rfl, rfl⟩
      | ok w => exact .inr (.inl ⟨_, _, _, rfl, rfl, rfl⟩)
  case sw rs rt v =>
    have hrs : s'.reg rs = s.reg rs := hsrc rs (by simp [Datapath.sources])
    have hrt : s'.reg rt = s.reg rt := hsrc rt (by simp [Datapath.sources])
    simp only [exec, execSw, hcfg, State.effectiveAddress_congr hrs, hrt, State.storeWord_congr hmem hcfg, hnext]
    cases s.cfg.memStage with
    | stub => exact .inr (.inr (.inl ⟨rfl, _, rfl, rfl⟩))
    | ram =>
      cases s.storeWord (s.effectiveAddress rs v) (s.reg rt) with
      | error r => exact .inl ⟨r, rfl, rfl⟩
      | ok m => exact .inr (.inr (.inr ⟨rfl, _, m, rfl, rfl⟩))
  case jr | j | beq | bne =>
    refine .inr (.inr (.inl ⟨rfl, _, rfl, ?_⟩))
    simp_all [Datapath.sources, exec, execJr, execJ, execBeq, execBne, State.branchTarget]
  all_goals
    refine .inr (.inl ⟨_, _, _, rfl, rfl, ?_⟩)
    simp_all [Datapath.sources, exec, execSll, execSrl, execAddu, execSubu, execAnd, execOr, execSlt, execAddiu,
      execAndi, execOri, execLui, execJal]

/-- What a commit reports and leaves in its destination depends on the state through the parameters only: the
hard-wired zero reads 0 in every state (R23). -/
theorem State.commitReg_congr {s s' : State} (hcfg : s'.cfg = s.cfg) (d : RegIndex) (v n : Word) :
    (s'.commitReg d v n).lastChanged = (s.commitReg d v n).lastChanged ∧
    (s'.commitReg d v n).reg d = (s.commitReg d v n).reg d := by
  have hzero : s'.IsZeroReg d ↔ s.IsZeroReg d := by simp only [State.IsZeroReg, hcfg]
  refine ⟨by simp only [State.commitReg_lastChanged, hzero], ?_⟩
  rw [State.commitReg_reg, State.commitReg_reg]
  by_cases hz : s.IsZeroReg d
  · rw [if_neg fun h => h.1 (hzero.2 hz), if_neg fun h => h.1 hz, State.reg, State.reg, if_pos (hzero.2 hz), if_pos hz]
  · rw [if_pos ⟨mt hzero.1 hz, rfl⟩, if_pos ⟨hz, rfl⟩]

/-- Settles O47: the same update gives the same pc, memory, report and destination value. -/
theorem resultDependsOnlyOnTheSources : Obligations.ResultDependsOnlyOnTheSources := by
  intro i s s' hpc hmem hcfg hsrc
  obtain ⟨r, ht, ht'⟩ | ⟨d, v, n, hd, ht, ht'⟩ | ⟨hd, n, ht, ht'⟩ | ⟨hd, n, m, ht, ht'⟩ :=
    exec_congr hpc hmem hcfg hsrc
  · exact ⟨_, _, ht, ht', .inl ⟨r, rfl, rfl⟩⟩
  · obtain ⟨hreport, hvalue⟩ := State.commitReg_congr hcfg d v n
    refine ⟨_, _, ht, ht', .inr ⟨by simp, by simp [hmem], hreport, fun e he => ?_⟩⟩
    cases Option.some.inj (hd.symm.trans he)
    exact hvalue
  · exact ⟨_, _, ht, ht', .inr ⟨rfl, hmem, rfl, fun e he => nomatch hd.symm.trans he⟩⟩
  · exact ⟨_, _, ht, ht', .inr ⟨rfl, rfl, rfl, fun e he => nomatch hd.symm.trans he⟩⟩

/-- A commit overwrites `last_changed`, whatever it was (R104). -/
theorem State.commitReg_of_lastChanged (s : State) (l : Option RegIndex) (d : RegIndex) (v n : Word) :
    State.commitReg { s with lastChanged := l } d v n = s.commitReg d v n := rfl

/-- Settles O51: the fetch does not look at `last_changed`, no instruction does, and every commit overwrites it. -/
theorem lastChangedIsAnOutputOnly : Obligations.LastChangedIsAnOutputOnly := by
  intro s l hrun
  cases hq : s.haltReqNow with
  | true =>
    exact ⟨_, _, step_eq_of_haltReqNow hrun hq, step_eq_of_haltReqNow (s := { s with lastChanged := l }) hrun hq,
      nofun, fun _ => rfl⟩
  | false =>
    cases hf : s.fetchDecode with
    | error r =>
      exact ⟨_, _, step_eq_of_fetchDecode_error hrun hq hf,
        step_eq_of_fetchDecode_error (s := { s with lastChanged := l }) hrun hq hf, nofun, fun _ => rfl⟩
    | ok i =>
      rw [step_eq_of_fetchDecode_ok hrun hq hf,
        step_eq_of_fetchDecode_ok (s := { s with lastChanged := l }) hrun hq hf]
      obtain ⟨r, ht, ht'⟩ | ⟨d, v, n, -, ht, ht'⟩ | ⟨-, n, ht, ht'⟩ | ⟨-, n, m, ht, ht'⟩ :=
        exec_congr (i := i) (s := s.sampleHaltReq) (s' := { s.sampleHaltReq with lastChanged := l })
          rfl rfl rfl fun _ _ => rfl
      · exact ⟨_, _, ht, ht', nofun, fun _ => rfl⟩
      · refine ⟨_, _, ht, ht', fun _ => State.commitReg_of_lastChanged _ l d v n, fun hhalt => absurd ?_ hhalt⟩
        rw [State.commitReg_runState]
        exact hrun
      · exact ⟨_, _, ht, ht', fun _ => rfl, fun hhalt => absurd hrun hhalt⟩
      · exact ⟨_, _, ht, ht', fun _ => rfl, fun hhalt => absurd hrun hhalt⟩

/-! ### The pc -/

/-- Where an instruction can leave the pc (R95; a halt leaves it, R103). -/
theorem exec_pc_cases {i : Instr} {s t : State} (h : exec i s = .next t) :
    t.pc = s.pc ∨ t.pc = s.pcPlus4 ∨ (∃ v, t.pc = s.branchTarget v) ∨ (i = .j t.pc ∨ i = .jal t.pc) ∨
      ∃ rs rt rd a, i = .jr rs rt rd a := by
  cases i
  case lw =>
    obtain ⟨r, rfl⟩ | ⟨w, rfl⟩ := exec_lw_cases h
    · exact .inl rfl
    · exact .inr (.inl (State.commitReg_pc ..))
  case sw =>
    obtain ⟨r, rfl⟩ | rfl | ⟨m, -, -, rfl⟩ := exec_sw_cases h
    · exact .inl rfl
    · exact .inr (.inl rfl)
    · exact .inr (.inl rfl)
  case beq rs rt v | bne rs rt v =>
    cases h
    rw [State.commitNone_pc]
    cases isZero (s.reg rs - s.reg rt)
    all_goals simp
  case j =>
    cases h
    exact .inr (.inr (.inr (.inl (.inl rfl))))
  case jal =>
    cases h
    exact .inr (.inr (.inr (.inl (.inr (by rw [State.commitReg_pc])))))
  case jr =>
    exact .inr (.inr (.inr (.inr ⟨_, _, _, _, rfl⟩)))
  all_goals
    cases h
    exact .inr (.inl (State.commitReg_pc ..))

theorem sext32_signExtended16 (f : BitVec 16) : SignExtended16 (sext32 f) := by
  have hlow : (sext32 f).setWidth 16 = f := by
    apply BitVec.eq_of_toNat_eq
    rw [BitVec.toNat_setWidth, sext32_toNat]
    split <;> omega
  rw [SignExtended16, hlow]
  rfl

theorem jumpField_shiftedField26 (f : BitVec 26) : ShiftedField26 (jumpField f) := by
  have := f.isLt
  rw [ShiftedField26, jumpField_toNat]
  omega

/-- The decoder answers well-formed instructions only (R69). -/
theorem decodeWith_wellFormed {c : Codes} {w : Word} {i : Instr} (h : decodeWith c w = .instr i) : i.WellFormed := by
  unfold decodeWith at h
  split at h
  · simp only [decodeRR] at h
    split_ifs at h <;> cases h <;> rfl
  · simp only [decodeJ] at h
    split_ifs at h <;> cases h <;> exact decide_eq_true (jumpField_shiftedField26 _)
  · simp only [decodeRI] at h
    split_ifs at h <;> cases h <;> exact decide_eq_true (sext32_signExtended16 _)

theorem State.pcPlus4_mod_four {s : State} (h : s.pc.toNat % 4 = 0) : s.pcPlus4.toNat % 4 = 0 := by
  unfold State.pcPlus4
  bv_omega

theorem State.branchTarget_mod_four {s : State} (h : s.pc.toNat % 4 = 0) (v : Word) :
    (s.branchTarget v).toNat % 4 = 0 := by
  have := State.pcPlus4_mod_four h
  simp only [State.branchTarget, BitVec.toNat_add, BitVec.toNat_shiftLeft, Nat.shiftLeft_eq]
  omega

/-- Settles O52: every next pc but that of a `jr` is a multiple of 4, a jump target because it was decoded. -/
theorem onlyJrCanMisalignThePc : Obligations.OnlyJrCanMisalignThePc := by
  intro s t hal h
  obtain ⟨r, rfl⟩ | ⟨i, hi, hexec⟩ := step_halts_or_execs h
  · exact .inl hal
  have hwf : i.WellFormed := decodeWith_wellFormed (State.fetchDecode_ok hi).2
  obtain hpc | hpc | ⟨v, hpc⟩ | (rfl | rfl) | ⟨rs, rt, rd, a, rfl⟩ := exec_pc_cases hexec
  · exact .inl (hpc ▸ hal)
  · exact .inl (hpc ▸ State.pcPlus4_mod_four hal)
  · exact .inl (hpc ▸ State.branchTarget_mod_four hal v)
  · exact .inl (of_decide_eq_true hwf : ShiftedField26 t.pc).2
  · exact .inl (of_decide_eq_true hwf : ShiftedField26 t.pc).2
  · exact .inr ⟨rs, rt, rd, a, hi⟩

end Sys2Proof.Machine
end

section
/-! SUPPORT. The statements about memory (20_memory.md), and the rules they rest on: when an access fails, what a fetch,
`lw` and `sw` answer when it fails and when it does not, what a load sees after a store, and that a commit completes. -/

namespace Sys2Proof.Machine

/-! ### The address checks -/

/-- Settles O35: the word index is below `N_WORDS` exactly when the byte address is below the array's end. -/
theorem inRangeIsTheArrayInterval : Obligations.InRangeIsTheArrayInterval := by
  intro c a
  rw [inRange_iff]
  omega

theorem accessFault_of_misaligned {c : Config} {a : Word} (h : a.toNat % 4 ≠ 0) :
    accessFault c a = some .addressMisaligned :=
  if_pos (Bool.eq_false_iff.2 fun hal => h ((aligned_iff a).1 hal))

theorem accessFault_of_outside {c : Config} {a : Word} (hal : a.toNat % 4 = 0)
    (h : a.toNat < c.textBase.toNat ∨ c.textBase.toNat + 4 * c.nWords ≤ a.toNat) :
    accessFault c a = some .memoryOutOfRange := by
  have hin : inRange c a = false := by
    rw [Bool.eq_false_iff, Ne, inRangeIsTheArrayInterval c a]
    omega
  simp [accessFault, (aligned_iff a).2 hal, hin]

/-! ### The memory primitives, by the outcome of the checks (R44 to R48) -/

theorem State.loadWord_of_fault {s : State} {a : Word} {r : HaltReason} (h : accessFault s.cfg a = some r) :
    s.loadWord a = .error r := by
  simp [State.loadWord, h]

theorem State.loadWord_of_no_fault {s : State} {a : Word} (h : accessFault s.cfg a = none) :
    s.loadWord a = .ok (s.memWord (index s.cfg a)) := by
  simp [State.loadWord, h]

theorem State.storeWord_of_fault {s : State} {a v : Word} {r : HaltReason} (h : accessFault s.cfg a = some r) :
    s.storeWord a v = .error r := by
  simp [State.storeWord, h]

/-- A load at the address of a store, from the memory the store gave, answers the stored value (R51). -/
theorem State.loadWord_of_storeWord_ok {s t : State} {a v : Word} (hsorted : Memory.Sorted s.mem)
    (hcfg : t.cfg = s.cfg) (hstore : s.storeWord a v = .ok t.mem) : t.loadWord a = .ok v := by
  obtain ⟨hchecks, hmem⟩ := State.storeWord_ok hstore
  rw [State.loadWord_of_no_fault (hcfg ▸ hchecks), State.memWord, hcfg, hmem, Memory.read_write hsorted, if_pos rfl]

theorem State.fetchDecode_of_fault {s : State} {r : HaltReason} (h : accessFault s.cfg s.pc = some r) :
    s.fetchDecode = .error r := by
  simp [State.fetchDecode, State.loadWord_of_fault h]

theorem State.fetchDecode_of_instr {s : State} {w : Word} {i : Instr} (hw : s.loadWord s.pc = .ok w)
    (hd : decodeWith s.cfg.codes w = .instr i) : s.fetchDecode = .ok i := by
  simp [State.fetchDecode, hw, hd]

theorem State.fetchDecode_of_illegal {s : State} {w : Word} (hw : s.loadWord s.pc = .ok w)
    (hd : decodeWith s.cfg.codes w = .error .illegalInstruction) : s.fetchDecode = .error .illegalInstruction := by
  simp [State.fetchDecode, hw, hd]

/-! ### `lw` and `sw`, one equation per outcome (R55, R150, R151) -/

section
variable {s : State} {rs rt : RegIndex} {v : Word}

theorem exec_lw_of_stub (h : s.cfg.memStage = .stub) :
    exec (.lw rs rt v) s = .next (s.commitReg rt (s.effectiveAddress rs v) s.pcPlus4) := by
  simp [exec, execLw, h]

theorem exec_lw_of_loadWord_ok {w : Word} (h : s.cfg.memStage = .ram)
    (hload : s.loadWord (s.effectiveAddress rs v) = .ok w) :
    exec (.lw rs rt v) s = .next (s.commitReg rt w s.pcPlus4) := by
  simp [exec, execLw, h, hload]

theorem exec_lw_of_loadWord_error {r : HaltReason} (h : s.cfg.memStage = .ram)
    (hload : s.loadWord (s.effectiveAddress rs v) = .error r) :
    exec (.lw rs rt v) s = .next (s.halt r) := by
  simp [exec, execLw, h, hload]

theorem exec_sw_of_stub (h : s.cfg.memStage = .stub) : exec (.sw rs rt v) s = .next (s.commitNone s.pcPlus4) := by
  simp [exec, execSw, h]

theorem exec_sw_of_storeWord_ok {m : Memory} (h : s.cfg.memStage = .ram)
    (hstore : s.storeWord (s.effectiveAddress rs v) (s.reg rt) = .ok m) :
    exec (.sw rs rt v) s = .next ((s.commitNone s.pcPlus4).setMem m) := by
  simp [exec, execSw, h, hstore]

theorem exec_sw_of_storeWord_error {r : HaltReason} (h : s.cfg.memStage = .ram)
    (hstore : s.storeWord (s.effectiveAddress rs v) (s.reg rt) = .error r) :
    exec (.sw rs rt v) s = .next (s.halt r) := by
  simp [exec, execSw, h, hstore]

end

/-! ### Failed accesses -/

/-- A fetch address that fails its checks halts the machine for that reason (R48, R103). -/
theorem step_eq_of_accessFault {s : State} {r : HaltReason} (hrun : s.runState = .running)
    (hq : s.haltReqNow = false) (h : accessFault s.cfg s.pc = some r) :
    step s = .next (s.sampleHaltReq.halt r) :=
  step_eq_of_fetchDecode_error hrun hq (State.fetchDecode_of_fault h)

/-- A data address that fails its checks halts `lw` and `sw` for that reason (R46, R47, R103). -/
theorem exec_lw_sw_of_accessFault {s : State} {rs : RegIndex} {v : Word} {r : HaltReason} (rt : RegIndex)
    (hram : s.cfg.memStage = .ram) (h : accessFault s.cfg (s.effectiveAddress rs v) = some r) :
    exec (.lw rs rt v) s = .next (s.halt r) ∧ exec (.sw rs rt v) s = .next (s.halt r) :=
  ⟨exec_lw_of_loadWord_error hram (State.loadWord_of_fault h),
    exec_sw_of_storeWord_error hram (State.storeWord_of_fault h)⟩

/-- Settles O32: the alignment check comes first, so it fails in range or not, and a failed check halts the access. -/
theorem misalignedAccessHalts : Obligations.MisalignedAccessHalts :=
  ⟨fun _ hrun hq hpc => step_eq_of_accessFault hrun hq (accessFault_of_misaligned hpc),
    fun _ _ rt _ hram hea => exec_lw_sw_of_accessFault rt hram (accessFault_of_misaligned hea)⟩

/-- Settles O33: an aligned address outside the array fails the range check, and a failed check halts the access. -/
theorem outOfRangeAccessHalts : Obligations.OutOfRangeAccessHalts :=
  ⟨fun _ hrun hq hal hout => step_eq_of_accessFault hrun hq (accessFault_of_outside hal hout),
    fun _ _ rt _ hram hal hout => exec_lw_sw_of_accessFault rt hram (accessFault_of_outside hal hout)⟩

/-! ### What the next access sees after a store -/

/-- After a `sw` that does not halt, a load at its effective address, for data or for the fetch, answers the stored
register's value (R51, R53). -/
theorem loadWord_after_sw {s t : State} {rs rt : RegIndex} {v : Word} (hram : s.cfg.memStage = .ram)
    (hwf : Memory.wf s.cfg s.mem) (h : exec (.sw rs rt v) s = .next t) (hrun : t.runState = .running) :
    t.loadWord (s.effectiveAddress rs v) = .ok (s.reg rt) := by
  cases hstore : s.storeWord (s.effectiveAddress rs v) (s.reg rt) with
  | error r =>
    rw [exec_sw_of_storeWord_error hram hstore] at h
    cases h
    cases hrun
  | ok m =>
    rw [exec_sw_of_storeWord_ok hram hstore] at h
    cases h
    exact State.loadWord_of_storeWord_ok hwf.1 rfl hstore

/-- Settles O37: the load after the store answers the stored value, which `lw` commits to its destination. -/
theorem loadAfterStoreReadsTheStoredWord : Obligations.LoadAfterStoreReadsTheStoredWord := by
  intro s t rs rt rd v rs' v' hram hwf _ hsw hrun hea hrd
  have hload : t.loadWord (t.effectiveAddress rs' v') = .ok (s.reg rt) :=
    hea ▸ loadWord_after_sw hram hwf hsw hrun
  have hcfg : t.cfg = s.cfg := (exec_haltReq_cfg hsw).2
  refine ⟨_, exec_lw_of_loadWord_ok (hcfg ▸ hram) hload, ?_⟩
  rw [State.commitReg_reg, if_pos ⟨hrd, rfl⟩]

/-- Settles O38: the fetch after the store loads the stored value, so it answers what that value decodes to. -/
theorem storeIsSeenByTheNextFetch : Obligations.StoreIsSeenByTheNextFetch := by
  intro s t rs rt v hram hwf _ hsw hrun hea
  have hload : t.loadWord t.pc = .ok (s.reg rt) := hea ▸ loadWord_after_sw hram hwf hsw hrun
  have hcfg : t.cfg = s.cfg := (exec_haltReq_cfg hsw).2
  cases hd : decodeWith s.cfg.codes (s.reg rt) with
  | instr i => exact State.fetchDecode_of_instr hload (hcfg ▸ hd)
  | error e => exact State.fetchDecode_of_illegal hload (hcfg ▸ hd)

/-! ### Commits complete, and the stub stage (R55, R104) -/

/-- The sequential next pc as an integer sum (R95). -/
theorem State.pcPlus4_eq_ofNat (s : State) : s.pcPlus4 = BitVec.ofNat 32 (s.pc.toNat + 4) := by
  unfold State.pcPlus4
  bv_omega

/-- A commit with destination `d` writes exactly that register, or none for the hard-wired zero (R99, R100). -/
theorem State.commitReg_writesRegister (s : State) (d : RegIndex) (v n : Word) :
    WritesRegister d v s (s.commitReg d v n) := by
  unfold WritesRegister WritesNoRegister
  split
  · rename_i hz
    exact ⟨(s.commitReg_regs d v n).trans (if_pos hz), (s.commitReg_lastChanged d v n).trans (if_pos hz)⟩
  · rename_i hz
    exact ⟨(s.commitReg_reg d v n d).trans (if_pos ⟨hz, rfl⟩),
      fun r hr => (s.commitReg_reg d v n r).trans (if_neg fun h => hr h.2),
      (s.commitReg_lastChanged d v n).trans (if_neg hz)⟩

/-- A commit to the next word with destination `d` is a completion that writes `d`. -/
theorem State.commitReg_completesWriting (s : State) (d : RegIndex) (v : Word) :
    CompletesWriting d v s (s.commitReg d v s.pcPlus4) :=
  ⟨s.commitReg_writesRegister d v _, (s.commitReg_pc ..).trans s.pcPlus4_eq_ofNat,
    fun _ => s.commitReg_memWord .., s.commitReg_runState .., s.commitReg_haltReq .., s.commitReg_cfg ..⟩

/-- A commit without destination is a completion that writes nothing. -/
theorem State.commitNone_completesAt (s : State) (n : Word) : CompletesAt n s (s.commitNone n) :=
  ⟨⟨rfl, rfl⟩, rfl, fun _ => rfl, rfl, rfl, rfl⟩

/-- Settles O34: with the stub stage `lw` is a commit of its effective address and `sw` a commit of nothing. -/
theorem stubStageMakesNoAccess : Obligations.StubStageMakesNoAccess := by
  intro s rs rt v hstub
  refine ⟨⟨_, exec_lw_of_stub hstub, s.commitReg_completesWriting rt _⟩, _, exec_sw_of_stub hstub, ?_⟩
  rw [← s.pcPlus4_eq_ofNat]
  exact s.commitNone_completesAt _

end Sys2Proof.Machine
end

section
/-! SUPPORT. The statements about the encoding (30_encoding.md), and the rules they rest on: the fields of an encoded word,
a word rebuilt from its fields, and what each of the three decoders answers. -/

namespace Sys2Proof.Machine

/-! ### The fields of an encoded word (R64 to R67) -/

section
variable (f op : Code) (rs rt rd : RegIndex) (a : Shamt) (v t : Word)

/-- The fields of a RegisterRegister word, but for its opcode (R64). -/
theorem encRR_fields :
    extract (encRR f rs rt rd a) 25 21 = rs ∧ extract (encRR f rs rt rd a) 20 16 = rt ∧
    extract (encRR f rs rt rd a) 15 11 = rd ∧ extract (encRR f rs rt rd a) 10 6 = a ∧
    extract (encRR f rs rt rd a) 5 0 = f := by
  have := f.isLt
  have := rs.isLt
  have := rt.isLt
  have := rd.isLt
  have := a.isLt
  refine ⟨?_, ?_, ?_, ?_, ?_⟩
  all_goals
    apply BitVec.eq_of_toNat_eq
    rw [extract_toNat, encRR_toNat]
    omega

/-- The fields of a RegisterImmediate word, but for its opcode (R65). -/
theorem encRI_fields :
    extract (encRI op rs rt v) 25 21 = rs ∧ extract (encRI op rs rt v) 20 16 = rt ∧
    extract (encRI op rs rt v) 15 0 = extract v 15 0 := by
  have := op.isLt
  have := rs.isLt
  have := rt.isLt
  refine ⟨?_, ?_, ?_⟩
  all_goals
    apply BitVec.eq_of_toNat_eq
    simp only [extract_toNat, encRI_toNat]
    omega

/-- The field of a Jump word, but for its opcode (R66). -/
theorem encJ_field : extract (encJ op t) 25 0 = extract t 27 2 := by
  apply BitVec.eq_of_toNat_eq
  rw [extract_toNat, encJ_toNat, extract_toNat]
  omega

end

/-- A well-formed immediate is the sign extension of the 16 bits that enter the word (R67). -/
theorem sext32_extract {v : Word} (h : SignExtended16 v) : sext32 (extract v 15 0) = v := by
  have hlow : extract v 15 0 = v.setWidth 16 := by
    apply BitVec.eq_of_toNat_eq
    rw [extract_toNat, BitVec.toNat_setWidth]
    omega
  rw [hlow]
  exact h.symm

/-- A well-formed jump target is the shift of the 26 bits that enter the word (R67). -/
theorem jumpField_extract {t : Word} (h : ShiftedField26 t) : jumpField (extract t 27 2) = t := by
  obtain ⟨hlt, hal⟩ := h
  apply BitVec.eq_of_toNat_eq
  rw [jumpField_toNat, extract_toNat]
  omega

/-! ### A word rebuilt from its fields, unused ones included (R74) -/

theorem encRR_extract {w : Word} (h : extract w 31 26 = 0) :
    encRR (extract w 5 0) (extract w 25 21) (extract w 20 16) (extract w 15 11) (extract w 10 6) = w := by
  have hop : (extract w 31 26).toNat = 0 := by rw [h]; rfl
  have := w.isLt
  apply BitVec.eq_of_toNat_eq
  rw [encRR_toNat]
  simp only [extract_toNat] at hop ⊢
  omega

theorem encRI_extract (w : Word) :
    encRI (extract w 31 26) (extract w 25 21) (extract w 20 16) (sext32 (extract w 15 0)) = w := by
  have := w.isLt
  apply BitVec.eq_of_toNat_eq
  rw [encRI_toNat, sext32_toNat]
  simp only [extract_toNat]
  split <;> omega

theorem encJ_extract (w : Word) : encJ (extract w 31 26) (jumpField (extract w 25 0)) = w := by
  have := w.isLt
  apply BitVec.eq_of_toNat_eq
  rw [encJ_toNat, jumpField_toNat]
  simp only [extract_toNat]
  omega

/-! ### The format, selected by the opcode (R63) -/

section
variable {op : Code}

theorem formatOf_eq_rr_iff : formatOf op = .rr ↔ op = 0 := by
  unfold formatOf
  split_ifs
  all_goals grind

theorem formatOf_eq_j_iff : formatOf op = .j ↔ op = 2 ∨ op = 3 := by
  unfold formatOf
  split_ifs
  all_goals grind

theorem formatOf_eq_ri_iff : formatOf op = .ri ↔ op ≠ 0 ∧ op ≠ 2 ∧ op ≠ 3 := by
  unfold formatOf
  split_ifs
  all_goals grind

end

/-! ### What the three decoders answer (R68, R72, R73) -/

section
variable {c : Codes} {w : Word} {i : Instr}

/-- A RegisterRegister instruction was decoded by its function code and carries the other four fields. -/
theorem decodeRR_eq_instr (h : decodeRR c w = .instr i) :
    i.format = .rr ∧ encodeWith c i =
      encRR (extract w 5 0) (extract w 25 21) (extract w 20 16) (extract w 15 11) (extract w 10 6) := by
  simp only [decodeRR] at h
  split_ifs at h
  all_goals
    cases h
    exact ⟨rfl, by simp [encodeWith, *]⟩

/-- A Jump instruction was decoded by its opcode and carries the shifted field. -/
theorem decodeJ_eq_instr (h : decodeJ c w = .instr i) :
    i.format = .j ∧ encodeWith c i = encJ (extract w 31 26) (jumpField (extract w 25 0)) := by
  simp only [decodeJ] at h
  split_ifs at h
  all_goals
    cases h
    exact ⟨rfl, by simp [encodeWith, *]⟩

/-- A RegisterImmediate instruction was decoded by its opcode and carries the other three fields. -/
theorem decodeRI_eq_instr (h : decodeRI c w = .instr i) :
    i.format = .ri ∧ encodeWith c i =
      encRI (extract w 31 26) (extract w 25 21) (extract w 20 16) (sext32 (extract w 15 0)) := by
  simp only [decodeRI] at h
  split_ifs at h
  all_goals
    cases h
    exact ⟨rfl, by simp [encodeWith, *]⟩

theorem decodeRR_eq_error_iff : decodeRR c w = .error .illegalInstruction ↔ extract w 5 0 ∉ c.functs := by
  simp only [decodeRR, Codes.functs, List.mem_cons, List.not_mem_nil, or_false, not_or]
  split_ifs
  all_goals simp_all

theorem decodeRI_eq_error_iff : decodeRI c w = .error .illegalInstruction ↔ extract w 31 26 ∉ c.riOpcodes := by
  simp only [decodeRI, Codes.riOpcodes, List.mem_cons, List.not_mem_nil, or_false, not_or]
  split_ifs
  all_goals simp_all

end

/-- The decoder's answer has the format of its opcode and re-encodes to the word (R63, R74). -/
theorem decodeWith_eq_instr {c : Codes} {w : Word} {i : Instr} (h : decodeWith c w = .instr i) :
    i.format = formatOf (extract w 31 26) ∧ encodeWith c i = w := by
  unfold decodeWith at h
  split at h
  next hfmt =>
    obtain ⟨hi, henc⟩ := decodeRR_eq_instr h
    exact ⟨hi.trans hfmt.symm, henc.trans (encRR_extract (formatOf_eq_rr_iff.1 hfmt))⟩
  next hfmt =>
    obtain ⟨hi, henc⟩ := decodeJ_eq_instr h
    exact ⟨hi.trans hfmt.symm, henc.trans (encJ_extract w)⟩
  next hfmt =>
    obtain ⟨hi, henc⟩ := decodeRI_eq_instr h
    exact ⟨hi.trans hfmt.symm, henc.trans (encRI_extract w)⟩

/-! ### Each decoder reads back what the encoder wrote, for distinct constants (R71, R82) -/

section
variable {c : Codes} {i : Instr}

theorem decodeRR_encodeWith (hfn : c.functs.Nodup) (hi : i.format = .rr) :
    decodeRR c (encodeWith c i) = .instr i := by
  have hne : [c.fnSlt, c.fnOr, c.fnAnd, c.fnSubu, c.fnAddu, c.fnJr, c.fnSrl, c.fnSll].Nodup :=
    List.nodup_reverse.2 hfn
  simp only [List.nodup_cons, List.mem_cons, not_or] at hne
  cases i
  case sll | srl | jr | addu | subu | and | or | slt => simp [encodeWith, decodeRR, encRR_fields, hne]
  all_goals cases hi

theorem decodeJ_encodeWith (hne : c.opJal ≠ c.opJ) (hi : i.format = .j) (hwf : i.WellFormed) :
    decodeJ c (encodeWith c i) = .instr i := by
  cases i
  case j | jal =>
    have ht := jumpField_extract (of_decide_eq_true hwf)
    simp [encodeWith, decodeJ, encJ_opcode, encJ_field, ht, hne]
  all_goals cases hi

theorem decodeRI_encodeWith (hop : c.riOpcodes.Nodup) (hi : i.format = .ri) (hwf : i.WellFormed) :
    decodeRI c (encodeWith c i) = .instr i := by
  have hne : [c.opSw, c.opLw, c.opLui, c.opOri, c.opAndi, c.opAddiu, c.opBne, c.opBeq].Nodup :=
    List.nodup_reverse.2 hop
  simp only [List.nodup_cons, List.mem_cons, not_or] at hne
  cases i
  case beq | bne | addiu | andi | ori | lui | lw | sw =>
    have hv := sext32_extract (of_decide_eq_true hwf)
    simp [encodeWith, decodeRI, encRI_opcode, encRI_fields, hv, hne]
  all_goals cases hi

end

/-- The opcode the encoder writes selects the instruction's own format (R63, R71). -/
theorem formatOf_encodeWith {c : Codes} (hc : c.Admissible) (i : Instr) :
    formatOf (extract (encodeWith c i) 31 26) = i.format := by
  obtain ⟨-, -, hri, hj⟩ := hc
  have hri' : ∀ op ∈ c.riOpcodes, formatOf op = .ri := fun op hop =>
    have ⟨h0, h2, h3, _⟩ := hri op hop
    formatOf_eq_ri_iff.2 ⟨h0, h2, h3⟩
  cases i
  case sll | srl | jr | addu | subu | and | or | slt =>
    rw [encodeWith, encRR_opcode]
    rfl
  case j =>
    rw [encodeWith, encJ_opcode]
    exact formatOf_eq_j_iff.2 (hj.imp And.left And.left)
  case jal =>
    rw [encodeWith, encJ_opcode]
    exact formatOf_eq_j_iff.2 (hj.symm.imp And.right And.right)
  case beq | bne | addiu | andi | ori | lui | lw | sw =>
    rw [encodeWith, encRI_opcode]
    exact hri' _ (by simp [Codes.riOpcodes])

/-- Settles O4: the word's opcode selects the decoder of the instruction's format, which reads the instruction back. -/
theorem decodeOfEncodeIsIdentity : Obligations.DecodeOfEncodeIsIdentity := by
  intro c i hc hwf
  rw [decodeWith, formatOf_encodeWith hc]
  obtain ⟨hfn, hop, -, hj⟩ := hc
  cases hi : i.format with
  | rr => exact decodeRR_encodeWith hfn hi
  | j =>
    have hne : c.opJal ≠ c.opJ := by
      obtain ⟨h1, h2⟩ | ⟨h1, h2⟩ := hj
      all_goals simp [h1, h2]
    exact decodeJ_encodeWith hne hi hwf
  | ri => exact decodeRI_encodeWith hop hi hwf

/-- Settles O5: each decoder answers its word's own fields. -/
theorem encodeOfDecodeIsIdentity : Obligations.EncodeOfDecodeIsIdentity := by
  intro c w i h
  exact ⟨(decodeWith_eq_instr h).2, decodeWith_wellFormed h⟩

/-- Settles O3: the decoder's answer has the format of its opcode. -/
theorem formatIsSelectedByOpcode : Obligations.FormatIsSelectedByOpcode := by
  intro c w i h
  rw [(decodeWith_eq_instr h).1]
  exact ⟨formatOf_eq_rr_iff.2, formatOf_eq_j_iff.2, fun h0 h2 h3 => formatOf_eq_ri_iff.2 ⟨h0, h2, h3⟩⟩

/-! ### The opcode table (R74) -/

/-- The word of an instruction is selected by the instruction's row. -/
theorem encode_selected (i : Instr) : i.tableRow.Selects (encode i) := by
  cases i with
  | sll => exact Laws.Selected.sll ..
  | srl => exact Laws.Selected.srl ..
  | jr => exact Laws.Selected.jr ..
  | addu => exact Laws.Selected.addu ..
  | subu => exact Laws.Selected.subu ..
  | and => exact Laws.Selected.and ..
  | or => exact Laws.Selected.or ..
  | slt => exact Laws.Selected.slt ..
  | j => exact Laws.Selected.j _
  | jal => exact Laws.Selected.jal _
  | beq => exact Laws.Selected.beq ..
  | bne => exact Laws.Selected.bne ..
  | addiu => exact Laws.Selected.addiu ..
  | andi => exact Laws.Selected.andi ..
  | ori => exact Laws.Selected.ori ..
  | lui => exact Laws.Selected.lui ..
  | lw => exact Laws.Selected.lw ..
  | sw => exact Laws.Selected.sw ..

section
variable {w p : Word}

/-- The opcode of a word that a row of the RegisterImmediate or the Jump format selects. -/
theorem extract_opcode_of_and (h : w &&& 0xFC000000 = p) : extract w 31 26 = extract p 31 26 := by
  subst h
  rw [extract, extract, BitVec.extractLsb_and]
  exact BitVec.and_allOnes.symm

/-- The opcode and the function code of a word that a RegisterRegister row selects. -/
theorem extract_opcode_funct_of_and (h : w &&& 0xFC00003F = p) :
    extract w 31 26 = extract p 31 26 ∧ extract w 5 0 = extract p 5 0 := by
  subst h
  rw [extract, extract, extract, extract, BitVec.extractLsb_and, BitVec.extractLsb_and]
  exact ⟨BitVec.and_allOnes.symm, BitVec.and_allOnes.symm⟩

end

/-- The bits under a row's mask are all the decoder dispatches on. -/
theorem decode_of_selected {w : Word} {j : Instr} (h : j.tableRow.Selects w) :
    ∃ i, decode w = .instr i ∧ i.tableRow = j.tableRow := by
  cases j
  case sll | srl | jr | addu | subu | and | or | slt =>
    obtain ⟨hop, hfn⟩ := extract_opcode_funct_of_and h
    simp [decode, decodeWith, formatOf, decodeRR, Codes.mips32, Instr.tableRow, hop, hfn]
  case j | jal =>
    have hop := extract_opcode_of_and h
    simp [decode, decodeWith, formatOf, decodeJ, Codes.mips32, Instr.tableRow, hop]
  case beq | bne | addiu | andi | ori | lui | lw | sw =>
    have hop := extract_opcode_of_and h
    simp [decode, decodeWith, formatOf, decodeRI, Codes.mips32, Instr.tableRow, hop]

/-- Settles O6: a decoded word is the word of its instruction, and the decoder answers one row only. -/
theorem tableRowsSelectTheDecodedInstruction : Obligations.TableRowsSelectTheDecodedInstruction := by
  refine ⟨fun w i h => ?_, fun w j h => decode_of_selected h, fun w i j hi hj => ?_⟩
  · have hw : encode i = w := (decodeWith_eq_instr h).2
    exact hw ▸ encode_selected i
  · obtain ⟨i', hi', hrow⟩ := decode_of_selected hi
    obtain ⟨j', hj', hrow'⟩ := decode_of_selected hj
    cases hi'.symm.trans hj'
    exact hrow.symm.trans hrow'

/-! ### The charts (R72, R73, R76) -/

/-- The illegal words, whatever the admissible constants. -/
theorem decodeWith_eq_error_iff {c : Codes} (hc : c.Admissible) (w : Word) :
    decodeWith c w = .error .illegalInstruction ↔
      (extract w 31 26 = 0 ∧ extract w 5 0 ∉ c.functs) ∨ extract w 31 26 ∉ 0 :: 2 :: 3 :: c.riOpcodes := by
  obtain ⟨-, -, -, hj⟩ := hc
  unfold decodeWith
  split
  next hfmt =>
    rw [decodeRR_eq_error_iff, formatOf_eq_rr_iff.1 hfmt]
    simp
  next hfmt =>
    obtain hop | hop := formatOf_eq_j_iff.1 hfmt
    all_goals
      obtain ⟨h1, h2⟩ | ⟨h1, h2⟩ := hj
      all_goals simp [decodeJ, hop, h1, h2]
  next hfmt =>
    obtain ⟨h0, h2, h3⟩ := formatOf_eq_ri_iff.1 hfmt
    rw [decodeRI_eq_error_iff]
    simp only [List.mem_cons, h0, h2, h3, false_or, false_and]

/-- Settles O7: the two lists are the charts at the constants of R70. -/
theorem illegalWordsAreThoseOfTheCharts : Obligations.IllegalWordsAreThoseOfTheCharts :=
  decodeWith_eq_error_iff (c := Codes.mips32) (by decide)

/-! ### The encoders as shifted fields (R82) -/

/-- A field in the low bits of a word, as a number. -/
theorem setWidth_extract (w : Word) (high low : Nat) :
    (extract w high low).setWidth 32 = BitVec.ofNat 32 ((w.toNat >>> low) % 2 ^ (high - low + 1)) := by
  rw [← BitVec.ofNat_toNat, extract_toNat, Nat.shiftRight_eq_div_pow]

/-- Settles O10: each `++` is a shift and an or, and the shifts of one field add up. -/
theorem encodersAreShiftedFields : Obligations.EncodersAreShiftedFields := by
  refine ⟨fun f rs rt rd a => ?_, fun op rs rt v => ?_, fun op t => ?_⟩
  · rw [← BitVec.setWidth_eq (encRR f rs rt rd a), encRR]
    simp only [BitVec.setWidth_append_eq_shiftLeft_setWidth_or, BitVec.shiftLeft_or_distrib, ← BitVec.shiftLeft_add]
    simp
  · rw [← BitVec.setWidth_eq (encRI op rs rt v), encRI]
    simp only [BitVec.setWidth_append_eq_shiftLeft_setWidth_or, BitVec.shiftLeft_or_distrib, ← BitVec.shiftLeft_add,
      setWidth_extract]
    rfl
  · rw [← BitVec.setWidth_eq (encJ op t), encJ, BitVec.setWidth_append_eq_shiftLeft_setWidth_or, setWidth_extract]

/-! ### The extractor and the sign extension (R60, R61) -/

/-- Settles O1: a shift is a quotient and a mask a remainder. -/
theorem extractIsShiftAndMask : Obligations.ExtractIsShiftAndMask := by
  intro w high low _ _
  rw [extract_toNat, Nat.one_shiftLeft, Nat.and_two_pow_sub_one_eq_mod, Nat.shiftRight_eq_div_pow]

/-- Settles O2: sign extension keeps the signed value. -/
theorem signExtensionIsFieldMinus65536 : Obligations.SignExtensionIsFieldMinus65536 := by
  refine ⟨fun f => ⟨?_, sext32_toNat f⟩, by decide, by decide, by decide⟩
  rw [sext32, BitVec.toInt_signExtend_of_le (by decide), BitVec.toInt_eq_msb_cond, BitVec.msb_eq_getLsbD_last]
  rfl

/-! ### Unused fields, and the words of R79 -/

/-- Settles O9: each meaning ignores the argument of the unused field. -/
theorem unusedFieldsChangeNothing : Obligations.UnusedFieldsChangeNothing := by
  intro s rs rt rd rs' rt' rd' a a' v
  exact ⟨rfl, rfl, rfl, rfl, rfl, rfl, rfl, rfl, rfl⟩

/-- Writing back a register's own value changes no register. -/
theorem State.commitReg_reg_self (s : State) (d : RegIndex) (n : Word) (r : RegIndex) :
    (s.commitReg d (s.reg d) n).reg r = s.reg r := by
  rw [State.commitReg_reg]
  split
  next h => rw [h.2]
  next => rfl

/-- Settles O11: `sll $0,$0,0` commits to register 0 the value it reads there. -/
theorem zeroWordIsSllAndOnesWordIsIllegal : Obligations.ZeroWordIsSllAndOnesWordIsIllegal := by
  refine ⟨by decide, by decide, fun s => ?_⟩
  obtain ⟨-, hpc, hmem, hctl⟩ := s.commitReg_completesWriting 0 (s.reg 0)
  have hexec : exec (.sll 0 0 0 0) s = .next (s.commitReg 0 (s.reg 0) s.pcPlus4) := by
    simp [exec, execSll]
  refine ⟨_, hexec, s.commitReg_reg_self 0 _, ?_, hpc, hmem, hctl⟩
  rw [State.commitReg_lastChanged]
  simp [State.IsZeroReg]

end Sys2Proof.Machine
end

section
/-! SUPPORT. The statements about the datapath (40_datapath.md), and the rules they rest on: the commit of the tables as
a commit of the state, when the data access fails, and the stage table read through the fetch. -/

namespace Sys2Proof.Machine

/-! ### The commit of the tables (R99, R104) -/

section
variable {i : Instr} {s : State}

/-- An instruction with a destination commits to it what the writeback mux selects, and stores nothing. -/
theorem Datapath.commit_of_destination {d : RegIndex} (hd : destination i = some d) :
    commit i s = s.commitReg d (rfWdata i s) (signals i s).nextPc := by
  have hstore : (signals i s).memWe = false := by
    cases i
    case sw => cases hd
    all_goals rfl
  have hwrite : (signals i s).rfWaddr = if s.IsZeroReg d then none else some d := by
    simp only [signals, writeEnable, hd]
  unfold commit State.commitReg
  split
  next hz => simp [hstore, hwrite, if_pos hz]
  next hz => simp [hstore, hwrite, if_neg hz]

/-- An instruction without a destination writes no register. -/
theorem Datapath.commit_of_no_destination (hd : destination i = none) :
    commit i s = (s.commitNone (signals i s).nextPc).setMem (commit i s).mem := by
  have hwrite : (signals i s).rfWaddr = none := by simp [signals, writeEnable, hd]
  simp [commit, State.commitNone, State.setMem, hwrite]

/-- The only register a commit changes is the destination (R97, R99). -/
theorem Datapath.commit_reg_of_ne {r : RegIndex} (hr : destination i ≠ some r) :
    (commit i s).reg r = s.reg r := by
  cases hd : destination i with
  | none => rw [commit_of_no_destination hd, State.setMem_reg, State.commitNone_reg]
  | some d =>
    have hne : r ≠ d := fun h => hr (h ▸ hd)
    rw [commit_of_destination hd, State.commitReg_reg, if_neg fun h => hne h.2]

/-! ### Stages 4 to 8 together (R102) -/

theorem Datapath.run_of_fault {r : HaltReason} (h : dataFault i s = some r) : run i s = s.halt r := by
  simp [run, h]

theorem Datapath.run_of_no_fault (h : dataFault i s = none) : run i s = commit i s := by
  simp [run, h]

/-- The tables halt for the data access or commit. -/
theorem Datapath.run_cases (i : Instr) (s : State) :
    (∃ r, dataFault i s = some r ∧ run i s = s.halt r) ∨ (dataFault i s = none ∧ run i s = commit i s) := by
  cases h : dataFault i s with
  | some r => exact .inl ⟨r, rfl, run_of_fault h⟩
  | none => exact .inr ⟨rfl, run_of_no_fault h⟩

end

/-! ### `lw` and `sw` by the tables (R55, R150, R151) -/

section
variable {s : State} (rs rt : RegIndex) (v : Word)

/-- With `stub` no data access is made, so none fails. -/
theorem Datapath.dataFault_of_stub (i : Instr) (h : s.cfg.memStage = .stub) : dataFault i s = none := by
  simp [dataFault, signals, h]

/-- With `ram`, `lw` and `sw` fail as the access at the effective address does. -/
theorem Datapath.dataFault_lw_sw_of_ram (h : s.cfg.memStage = .ram) :
    dataFault (.lw rs rt v) s = accessFault s.cfg (s.effectiveAddress rs v) ∧
    dataFault (.sw rs rt v) s = accessFault s.cfg (s.effectiveAddress rs v) := by
  simp [dataFault, signals, h, memRe, memWe, alu, readPort, rsField, State.effectiveAddress]

theorem State.storeWord_of_no_fault {a w : Word} (h : accessFault s.cfg a = none) :
    s.storeWord a w = .ok (Memory.write s.cfg.memFill s.mem (index s.cfg a) w) := by
  simp [State.storeWord, h]

theorem exec_lw_eq_run : exec (.lw rs rt v) s = .next (Datapath.run (.lw rs rt v) s) := by
  cases hms : s.cfg.memStage with
  | stub =>
    have hdata : Datapath.rfWdata (.lw rs rt v) s = s.effectiveAddress rs v := by
      simp [Datapath.rfWdata, Datapath.signals, hms, Datapath.alu, Datapath.readPort, Datapath.rsField,
        State.effectiveAddress]
    rw [exec_lw_of_stub hms, Datapath.run_of_no_fault (Datapath.dataFault_of_stub _ hms),
      Datapath.commit_of_destination rfl, hdata]
    rfl
  | ram =>
    have hfault := (Datapath.dataFault_lw_sw_of_ram rs rt v hms).1
    cases hacc : accessFault s.cfg (s.effectiveAddress rs v) with
    | some r =>
      rw [exec_lw_of_loadWord_error hms (State.loadWord_of_fault hacc), Datapath.run_of_fault (hfault.trans hacc)]
    | none =>
      have hdata : Datapath.rfWdata (.lw rs rt v) s = s.memWord (index s.cfg (s.effectiveAddress rs v)) := by
        simp [Datapath.rfWdata, Datapath.signals, Datapath.memRe, hms, Datapath.alu, Datapath.readPort,
          Datapath.rsField, State.effectiveAddress]
      rw [exec_lw_of_loadWord_ok hms (State.loadWord_of_no_fault hacc),
        Datapath.run_of_no_fault (hfault.trans hacc), Datapath.commit_of_destination rfl, hdata]
      rfl

theorem exec_sw_eq_run : exec (.sw rs rt v) s = .next (Datapath.run (.sw rs rt v) s) := by
  cases hms : s.cfg.memStage with
  | stub =>
    have hmem : (Datapath.commit (.sw rs rt v) s).mem = s.mem := by
      simp [Datapath.commit, Datapath.signals, hms]
    rw [exec_sw_of_stub hms, Datapath.run_of_no_fault (Datapath.dataFault_of_stub _ hms),
      Datapath.commit_of_no_destination rfl, hmem]
    rfl
  | ram =>
    have hfault := (Datapath.dataFault_lw_sw_of_ram rs rt v hms).2
    cases hacc : accessFault s.cfg (s.effectiveAddress rs v) with
    | some r =>
      rw [exec_sw_of_storeWord_error hms (State.storeWord_of_fault hacc), Datapath.run_of_fault (hfault.trans hacc)]
    | none =>
      have hmem : (Datapath.commit (.sw rs rt v) s).mem =
          Memory.write s.cfg.memFill s.mem (index s.cfg (s.effectiveAddress rs v)) (s.reg rt) := by
        simp [Datapath.commit, Datapath.signals, Datapath.memWe, hms, Datapath.alu, Datapath.readPort,
          Datapath.rsField, Datapath.rtField, State.effectiveAddress]
      rw [exec_sw_of_storeWord_ok hms (State.storeWord_of_no_fault hacc),
        Datapath.run_of_no_fault (hfault.trans hacc), Datapath.commit_of_no_destination rfl, hmem]
      rfl

end

/-! ### The meanings against the tables -/

/-- Settles O45: a register instruction commits what the ALU table gives to the destination of the table, a jump or
branch the next pc of the resolver, and `lw` and `sw` are the cases of their data access. -/
theorem meaningsAgreeWithTheDatapath : Obligations.MeaningsAgreeWithTheDatapath := by
  intro i s
  cases i
  case lw rs rt v => exact exec_lw_eq_run rs rt v
  case sw rs rt v => exact exec_sw_eq_run rs rt v
  case beq =>
    simp only [exec, execBeq, isZero_iff]
    rfl
  case bne rs rt v =>
    simp only [exec, execBne, isZero_iff, ← ite_not (s.reg rs - s.reg rt = 0)]
    rfl
  case jr | j => rfl
  all_goals
    rw [Datapath.run_of_no_fault rfl, Datapath.commit_of_destination rfl]
    rfl

/-- An instruction that answers a state halted for its data access, or made the commit of the tables. -/
theorem exec_halts_or_commits {i : Instr} {s t : State} (h : exec i s = .next t) :
    (∃ r, Datapath.dataFault i s = some r ∧ t = s.halt r) ∨
    (Datapath.dataFault i s = none ∧ t = Datapath.commit i s) := by
  rw [meaningsAgreeWithTheDatapath i s] at h
  cases h
  exact Datapath.run_cases i s

/-- Settles O46: an instruction that completes is a commit, which reports what the writeback mux enables. -/
theorem onlyTheDestinationRegisterChanges : Obligations.OnlyTheDestinationRegisterChanges := by
  intro i s t _ h hrun
  obtain ⟨r, -, rfl⟩ | ⟨-, rfl⟩ := exec_halts_or_commits h
  · cases hrun
  · exact ⟨rfl, fun r hr => Datapath.commit_reg_of_ne hr⟩

/-- Settles O48: the resolver gives the five their own next pc and every other instruction the sequential one. -/
theorem onlyFiveInstructionsTransferControl : Obligations.OnlyFiveInstructionsTransferControl := by
  intro i s t h hbeq hbne hj hjal hjr
  obtain ⟨r, -, rfl⟩ | ⟨-, rfl⟩ := exec_halts_or_commits h
  · exact .inr ⟨r, rfl⟩
  · refine .inl (Eq.trans ?_ s.pcPlus4_eq_ofNat)
    cases i
    case beq => exact (hbeq _ _ _ rfl).elim
    case bne => exact (hbne _ _ _ rfl).elim
    case j => exact (hj _ rfl).elim
    case jal => exact (hjal _ rfl).elim
    case jr => exact (hjr _ _ _ _ rfl).elim
    all_goals rfl

/-! ### An instruction run twice -/

/-- The value an instruction writes, `jal` apart, depends on its sources, the memory and the parameters only. -/
theorem Datapath.rfWdata_congr {i : Instr} {s t : State} {d : RegIndex} (hd : destination i = some d)
    (hjal : ∀ a, i ≠ .jal a) (hmem : t.mem = s.mem) (hcfg : t.cfg = s.cfg)
    (hsrc : ∀ r ∈ sources i, t.reg r = s.reg r) : rfWdata i t = rfWdata i s := by
  cases i
  case jal => exact (hjal _ rfl).elim
  case jr | j | beq | bne | sw => cases hd
  all_goals
    simp_all [sources, rfWdata, signals, memRe, alu, readPort, rsField, rtField, State.memWord]

/-- What the destination reads after the commit: the value written, or 0 where it is the hard-wired zero (R23). -/
theorem Datapath.commit_reg_destination {i : Instr} {s : State} {d : RegIndex} (hd : destination i = some d) :
    (commit i s).reg d = if s.IsZeroReg d then 0 else rfWdata i s := by
  rw [commit_of_destination hd, State.commitReg_reg]
  by_cases hz : s.IsZeroReg d
  · rw [if_pos hz, if_neg fun h => h.1 hz, State.reg, if_pos hz]
  · rw [if_neg hz, if_pos ⟨hz, rfl⟩]

/-- After a commit to a destination that is none of its sources, an instruction writes the same value again. -/
theorem Datapath.rfWdata_commit {i : Instr} {s : State} {d : RegIndex} (hd : destination i = some d)
    (hsrc : d ∉ sources i) (hjal : ∀ a, i ≠ .jal a) : rfWdata i (commit i s) = rfWdata i s := by
  refine rfWdata_congr hd hjal ?_ rfl fun r hr => commit_reg_of_ne fun h => ?_
  · rw [commit_of_destination hd, State.commitReg_mem]
  · cases Option.some.inj (hd.symm.trans h)
    exact hsrc hr

/-- Settles O50: a commit leaves the sources, so a second one writes the same value; a halt changes no register. -/
theorem repeatedWritesDoNotAccumulate : Obligations.RepeatedWritesDoNotAccumulate := by
  intro i s t u d hd hsrc hjal ht hu
  obtain ⟨r, hfault, rfl⟩ | ⟨-, rfl⟩ := exec_halts_or_commits ht
  · have hagain : Datapath.dataFault i (s.halt r) = some r := hfault
    rw [meaningsAgreeWithTheDatapath, Datapath.run_of_fault hagain] at hu
    cases hu
    rfl
  · obtain ⟨r, -, rfl⟩ | ⟨-, rfl⟩ := exec_halts_or_commits hu
    · rfl
    · rw [Datapath.commit_reg_destination hd, Datapath.commit_reg_destination hd, Datapath.rfWdata_commit hd hsrc hjal]
      rfl

/-! ### The step and the stage table (R101 to R105) -/

/-- The table's stages 1 to 3 are the fetch: the first failing stage is the halt request, else what the fetch answers,
else the data access of the instruction. -/
theorem Datapath.stageFault_eq (s : State) :
    stageFault s = if s.haltReqNow then some .userRequested else
      match s.fetchDecode with
      | .error r => some r
      | .ok i => dataFault i s := by
  have hal : extract s.pc 1 0 ≠ 0 ↔ aligned s.pc = false := by simp [aligned]
  unfold stageFault
  simp only [hal]
  obtain ⟨hpc, hf⟩ | ⟨hpc, hin, hf⟩ | ⟨hpc, hin, hf⟩ := accessFault_cases s.cfg s.pc
  · simp [hpc, State.fetchDecode_of_fault hf]
  · simp [hpc, hin, State.fetchDecode_of_fault hf]
  · cases hd : decodeWith s.cfg.codes (s.memWord (index s.cfg s.pc)) with
    | error e => simp [hpc, hin, State.fetchDecode_of_illegal (State.loadWord_of_no_fault hf) hd]
    | instr i => simp [hpc, hin, State.fetchDecode_of_instr (State.loadWord_of_no_fault hf) hd]

/-- A running machine halts at its first failing stage, or commits the instruction it fetched (R102, R103, R104). -/
theorem step_stage_cases {s : State} (hrun : s.runState = .running) :
    (∃ r, Datapath.stageFault s = some r ∧ step s = .next (s.sampleHaltReq.halt r)) ∨
    (Datapath.stageFault s = none ∧ ∃ i, s.fetchDecode = .ok i ∧
      step s = .next (Datapath.commit i s.sampleHaltReq)) := by
  rw [Datapath.stageFault_eq]
  cases hq : s.haltReqNow with
  | true => exact .inl ⟨_, rfl, step_eq_of_haltReqNow hrun hq⟩
  | false =>
    cases hf : s.fetchDecode with
    | error r => exact .inl ⟨r, rfl, step_eq_of_fetchDecode_error hrun hq hf⟩
    | ok i =>
      rw [step_eq_of_fetchDecode_ok hrun hq hf, meaningsAgreeWithTheDatapath]
      obtain ⟨r, hfault, hi⟩ | ⟨hnone, hi⟩ := Datapath.run_cases i s.sampleHaltReq
      · exact .inl ⟨r, hfault, congrArg _ hi⟩
      · exact .inr ⟨hnone, i, rfl, congrArg _ hi⟩

/-- Settles O44: the two cases of a step at a running machine, told apart by the stage table. -/
theorem stepFollowsTheStageTable : Obligations.StepFollowsTheStageTable := by
  intro s hrun
  obtain ⟨r, hfault, hstep⟩ | ⟨hnone, i, hi, hstep⟩ := step_stage_cases hrun
  · refine ⟨fun r' hr' => ?_, fun hnone => nomatch hfault.symm.trans hnone⟩
    cases Option.some.inj (hfault.symm.trans hr')
    exact hstep
  · exact ⟨fun r hr => (nomatch hnone.symm.trans hr), fun _ => ⟨i, (State.fetchDecode_ok hi).2, hstep⟩⟩

theorem step_eq_of_halted {s : State} {r : HaltReason} (h : s.runState = .halted r) :
    step s = .fault (.halted r) := by
  simp [step, h]

/-- Settles O42: at a running machine the step is a halt or a commit, at a halted one the fault. -/
theorem stepExistsExactlyWhenRunning : Obligations.StepExistsExactlyWhenRunning := by
  refine fun s => ⟨⟨fun ⟨t, ht⟩ => (step_cases ht).1, fun hrun => ?_⟩, fun r hr => step_eq_of_halted hr⟩
  obtain ⟨r, -, hstep⟩ | ⟨-, i, -, hstep⟩ := step_stage_cases hrun
  · exact ⟨_, hstep⟩
  · exact ⟨_, hstep⟩

/-- Settles O43: a commit keeps the machine running, so a step that ends halted is a halt entry. -/
theorem haltingStepChangesOnlyRunState : Obligations.HaltingStepChangesOnlyRunState := by
  intro s t h hhalt
  have hrun : s.runState = .running := (step_cases h).1
  obtain ⟨r, -, hstep⟩ | ⟨-, i, -, hstep⟩ := step_stage_cases hrun
  · cases hstep.symm.trans h
    exact ⟨r, rfl⟩
  · cases hstep.symm.trans h
    exact absurd hrun hhalt

/-- Settles O39: the checks of the fetch pass, so the fetch answers `i` and the step is `exec` of it. -/
theorem stepRunsTheDecodedInstruction : Obligations.StepRunsTheDecodedInstruction := by
  intro s i hrun hq hal hge hlt hd
  have hin : inRange s.cfg s.pc = true := (inRangeIsTheArrayInterval s.cfg s.pc).2 ⟨hge, hlt⟩
  have hchecks : accessFault s.cfg s.pc = none := by
    simp [accessFault, (aligned_iff s.pc).2 hal, hin]
  exact step_eq_of_fetchDecode_ok hrun hq (State.fetchDecode_of_instr (State.loadWord_of_no_fault hchecks) hd)

end Sys2Proof.Machine
end

section
/-! SUPPORT. The statements about the register-register ALU instructions (41_alu_register.md), and the rules they rest
on: the shifts, sums and differences of words as numbers, and the sign of a wrapped difference. Each instruction is a
commit of one such value, which completes and leaves the rest alone; its word decodes to it as every encoded word does. -/

namespace Sys2Proof.Machine

/-! ### The word operations as arithmetic (R120 to R123) -/

theorem shiftLeft_eq_ofNat (x : Word) (n : Nat) : x <<< n = BitVec.ofNat 32 (x.toNat * 2 ^ n) :=
  congrArg (BitVec.ofNat 32) (Nat.shiftLeft_eq _ n)

theorem ushiftRight_eq_ofNat (x : Word) (n : Nat) : x >>> n = BitVec.ofNat 32 (x.toNat / 2 ^ n) := by
  rw [← Nat.shiftRight_eq_div_pow, ← BitVec.toNat_ushiftRight, BitVec.ofNat_toNat, BitVec.setWidth_eq]

theorem sub_eq_ofInt (x y : Word) : x - y = BitVec.ofInt 32 (x.toNat - y.toNat) := by
  apply BitVec.eq_of_toInt_eq
  rw [BitVec.toInt_ofInt, BitVec.toInt_sub, BitVec.toInt_eq_toNat_bmod, BitVec.toInt_eq_toNat_bmod,
    Int.bmod_sub_bmod, Int.sub_bmod_bmod]

/-! ### The sign of a wrapped difference (R92, R126) -/

theorem isNegative_eq_getLsbD (d : Word) : isNegative d = d.getLsbD 31 :=
  (BitVec.getLsbD_eq_getElem (by decide)).symm

theorem isNegative_iff_toInt_neg (d : Word) : isNegative d = true ↔ d.toInt < 0 := by
  rw [isNegative_eq_msb, BitVec.msb_eq_toInt, decide_eq_true_eq]

theorem setIf_eq_one_iff (b : Bool) : setIf b = 1 ↔ b = true := by
  cases b
  all_goals decide

/-- The wrapped difference is negative when the true one is and fits, or when the true one is too large to fit: one
subtraction wraps at most once, and a wrap flips the sign. -/
theorem isNegative_sub_iff (x y : Word) :
    isNegative (x - y) = true ↔
      (-2 ^ 31 ≤ x.toInt - y.toInt ∧ x.toInt - y.toInt < 0) ∨ 2 ^ 31 ≤ x.toInt - y.toInt := by
  have := x.toInt_lt
  have := x.le_toInt
  have := y.toInt_lt
  have := y.le_toInt
  rw [isNegative_iff_toInt_neg, BitVec.toInt_sub, Int.bmod_def]
  split
  all_goals omega

/-- Settles O18: the cases of the sign of the wrapped difference, by whether the true difference fits in 32 bits. -/
theorem sltIsSignedCompareOrItsOppositeOnOverflow : Obligations.SltIsSignedCompareOrItsOppositeOnOverflow := by
  intro s rs rt rd a
  refine ⟨fun c hc => decodeOfEncodeIsIdentity c (.slt rs rt rd a) hc rfl,
    _, setIf (isNegative (s.reg rs - s.reg rt)), rfl, s.commitReg_completesWriting rd _, ?_, fun hlo hhi => ?_,
    fun hout => ?_⟩
  · rw [setIf, isNegative_eq_getLsbD]
  · rw [setIf_eq_one_iff, isNegative_sub_iff]
    omega
  · rw [setIf_eq_one_iff, isNegative_sub_iff]
    omega

/-! ### Shifts, sums and differences -/

/-- Settles O12: `sll` commits the shifted word, a product modulo 2^32. -/
theorem sllShiftsLeftByShamt : Obligations.SllShiftsLeftByShamt := by
  intro s rs rt rd a
  refine ⟨fun c hc => decodeOfEncodeIsIdentity c (.sll rs rt rd a) hc rfl, _, rfl, ?_⟩
  rw [← shiftLeft_eq_ofNat]
  exact s.commitReg_completesWriting rd _

/-- Settles O13: `srl` commits the shifted word, an unsigned quotient. -/
theorem srlShiftsRightWithZeroFill : Obligations.SrlShiftsRightWithZeroFill := by
  intro s rs rt rd a
  refine ⟨fun c hc => decodeOfEncodeIsIdentity c (.srl rs rt rd a) hc rfl, _, rfl, ?_⟩
  rw [← ushiftRight_eq_ofNat]
  exact s.commitReg_completesWriting rd _

/-- Settles O14: `addu` commits the sum of the two words, which wraps. -/
theorem adduWritesWrappedSum : Obligations.AdduWritesWrappedSum := by
  intro s rs rt rd a
  refine ⟨fun c hc => decodeOfEncodeIsIdentity c (.addu rs rt rd a) hc rfl, _, rfl, ?_⟩
  rw [← BitVec.add_def]
  exact s.commitReg_completesWriting rd _

/-- Settles O15: `subu` commits the difference of the two words, which wraps. -/
theorem subuWritesWrappedDifference : Obligations.SubuWritesWrappedDifference := by
  intro s rs rt rd a
  refine ⟨fun c hc => decodeOfEncodeIsIdentity c (.subu rs rt rd a) hc rfl, _, rfl, ?_⟩
  rw [← sub_eq_ofInt]
  exact s.commitReg_completesWriting rd _

/-! ### Bitwise operations (R124, R125) -/

/-- Settles O16: `and` commits the conjunction of the two words, whose bits are the conjunctions of theirs. -/
theorem andWritesBitwiseAnd : Obligations.AndWritesBitwiseAnd := by
  intro s rs rt rd a
  exact ⟨fun c hc => decodeOfEncodeIsIdentity c (.and rs rt rd a) hc rfl,
    _, s.reg rs &&& s.reg rt, rfl, s.commitReg_completesWriting rd _, fun _ _ => BitVec.getLsbD_and⟩

/-- Settles O17: `or` commits the disjunction of the two words, whose bits are the disjunctions of theirs. -/
theorem orWritesBitwiseOr : Obligations.OrWritesBitwiseOr := by
  intro s rs rt rd a
  exact ⟨fun c hc => decodeOfEncodeIsIdentity c (.or rs rt rd a) hc rfl,
    _, s.reg rs ||| s.reg rt, rfl, s.commitReg_completesWriting rd _, fun _ _ => BitVec.getLsbD_or⟩

end Sys2Proof.Machine
end

section
/-! SUPPORT. The statements about the register-immediate ALU instructions (42_alu_immediate.md), and the rules they rest
on: a word with a 16-bit immediate field decodes, and the sign-extended field is sixteen copies of its bit 15 above the
field, so that an operation with it acts on each half of a word. -/

namespace Sys2Proof.Machine

/-! ### The word of an instruction with an immediate field (R65, R67) -/

/-- The field that was sign-extended is the one that enters the word. -/
theorem extract_lower_sext32 (f : BitVec 16) : extract (sext32 f) 15 0 = f := by
  have := f.isLt
  apply BitVec.eq_of_toNat_eq
  rw [extract_toNat, sext32_toNat]
  split
  all_goals omega

theorem encRI_sext32 (op : Code) (rs rt : RegIndex) (f : BitVec 16) :
    encRI op rs rt (sext32 f) = op ++ rs ++ rt ++ f := by
  rw [encRI, extract_lower_sext32]

/-- The written-out word of a RegisterImmediate instruction decodes to it: its immediate, a sign-extended field, is all
that its well-formedness asks about. -/
theorem decodeWith_immediate_word {c : Codes} (hc : c.Admissible) {i : Instr} {op : Code} {rs rt : RegIndex}
    {f : BitVec 16} (henc : encodeWith c i = encRI op rs rt (sext32 f))
    (hwf : i.wellFormed = decide (SignExtended16 (sext32 f))) :
    decodeWith c (op ++ rs ++ rt ++ f) = .instr i := by
  rw [← encRI_sext32, ← henc]
  exact decodeOfEncodeIsIdentity c i hc (hwf.trans (decide_eq_true (sext32_signExtended16 f)))

/-! ### A sum with the signed field, and the field in the upper half -/

theorem add_sext32_eq_ofInt (x : Word) (f : BitVec 16) : x + sext32 f = BitVec.ofInt 32 (x.toNat + f.toInt) := by
  rw [BitVec.ofInt_add, BitVec.ofInt_natCast, BitVec.ofNat_toNat, BitVec.setWidth_eq]
  rfl

/-- The shift drops the copies of the sign bit (R133). -/
theorem sext32_shiftLeft_sixteen (f : BitVec 16) : sext32 f <<< 16 = f ++ (0 : BitVec 16) := by
  have := f.isLt
  apply BitVec.eq_of_toNat_eq
  rw [shiftLeft_eq_ofNat, BitVec.toNat_ofNat, toNat_append_add, sext32_toNat]
  change _ = f.toNat * 2 ^ 16 + 0
  split
  all_goals omega

/-- Settles O19: `addiu` commits the sum of the word and the signed field, which wraps. -/
theorem addiuAddsSignedField : Obligations.AddiuAddsSignedField := by
  intro s rs rt f
  refine ⟨fun c hc => decodeWith_immediate_word hc rfl rfl, _, rfl, ?_⟩
  rw [← add_sext32_eq_ofInt]
  exact s.commitReg_completesWriting rt _

/-- Settles O22: `lui` commits the sign-extended field shifted left by sixteen. -/
theorem luiPutsFieldInUpperHalf : Obligations.LuiPutsFieldInUpperHalf := by
  intro s rs rt f
  refine ⟨fun c hc => decodeWith_immediate_word hc rfl rfl, _, rfl, ?_⟩
  rw [← sext32_shiftLeft_sixteen]
  exact s.commitReg_completesWriting rt _

/-! ### The halves of a word under a sign-extended field (R131, R132) -/

theorem append_halves (x : Word) : extract x 31 16 ++ extract x 15 0 = x :=
  BitVec.extractLsb'_append_extractLsb' (w := 16)

theorem and_eq_append_halves (x y : Word) :
    x &&& y = (extract x 31 16 &&& extract y 31 16) ++ (extract x 15 0 &&& extract y 15 0) := by
  rw [← BitVec.extractLsb_and, ← BitVec.extractLsb_and, append_halves]

theorem or_eq_append_halves (x y : Word) :
    x ||| y = (extract x 31 16 ||| extract y 31 16) ++ (extract x 15 0 ||| extract y 15 0) := by
  rw [← BitVec.extractLsb_or, ← BitVec.extractLsb_or, append_halves]

/-- The upper half of a sign-extended field is sixteen copies of bit 15 of the field (R61). -/
theorem extract_upper_sext32 (f : BitVec 16) :
    extract (sext32 f) 31 16 = if f.toNat < 0x8000 then 0 else 0xFFFF := by
  have := f.isLt
  apply BitVec.eq_of_toNat_eq
  rw [extract_toNat, sext32_toNat]
  split
  · change f.toNat / 2 ^ 16 % 2 ^ 16 = 0
    omega
  · change (f.toNat + 0xFFFF0000) / 2 ^ 16 % 2 ^ 16 = 0xFFFF
    omega

theorem and_sext32 (x : Word) (f : BitVec 16) :
    x &&& sext32 f = (if f.toNat < 0x8000 then 0 else extract x 31 16) ++ (extract x 15 0 &&& f) := by
  rw [and_eq_append_halves, extract_lower_sext32, extract_upper_sext32]
  split
  · exact congrArg (· ++ (extract x 15 0 &&& f)) BitVec.and_zero
  · exact congrArg (· ++ (extract x 15 0 &&& f)) BitVec.and_allOnes

theorem or_sext32 (x : Word) (f : BitVec 16) :
    x ||| sext32 f = (if f.toNat < 0x8000 then extract x 31 16 else 0xFFFF) ++ (extract x 15 0 ||| f) := by
  rw [or_eq_append_halves, extract_lower_sext32, extract_upper_sext32]
  split
  · exact congrArg (· ++ (extract x 15 0 ||| f)) BitVec.or_zero
  · exact congrArg (· ++ (extract x 15 0 ||| f)) BitVec.or_allOnes

/-- Settles O20: `andi` commits the conjunction with the sign-extended field, which acts on each half of the word. -/
theorem andiMasksWithSignExtendedField : Obligations.AndiMasksWithSignExtendedField := by
  intro s rs rt f
  refine ⟨fun c hc => decodeWith_immediate_word hc rfl rfl, _, rfl, ?_⟩
  rw [← and_sext32]
  exact s.commitReg_completesWriting rt _

/-- Settles O21: `ori` commits the disjunction with the sign-extended field, which acts on each half of the word. -/
theorem oriSetsWithSignExtendedField : Obligations.OriSetsWithSignExtendedField := by
  intro s rs rt f
  refine ⟨fun c hc => decodeWith_immediate_word hc rfl rfl, _, rfl, ?_⟩
  rw [← or_sext32]
  exact s.commitReg_completesWriting rt _

end Sys2Proof.Machine
end

section
/-! SUPPORT. The statements about control transfer (43_control_transfer.md), and the rules they rest on: a branch compares
its registers for equality and its target is an integer sum modulo 2^32, a word with a 26-bit field decodes to the jump to
that field times four, and the link register is never the hard-wired zero. Each instruction is a commit, which completes
and leaves the rest alone. -/

namespace Sys2Proof.Machine

/-! ### Branches (R140, R141) -/

section
variable (s : State) (rs rt : RegIndex) (v : Word)

theorem exec_beq : exec (.beq rs rt v) s =
    .next (s.commitNone (if s.reg rs = s.reg rt then s.branchTarget v else s.pcPlus4)) := by
  simp only [exec, execBeq, isZero_sub, decide_eq_true_eq]

theorem exec_bne : exec (.bne rs rt v) s =
    .next (s.commitNone (if s.reg rs = s.reg rt then s.pcPlus4 else s.branchTarget v)) := by
  simp only [exec, execBne, isZero_sub, decide_eq_true_eq]

end

/-- The offset of a branch counts words: shifted left by two, it is the signed field times four (R95). -/
theorem sext32_shiftLeft_two (f : BitVec 16) : sext32 f <<< 2 = BitVec.ofInt 32 (4 * f.toInt) := by
  rw [BitVec.shiftLeft_eq_mul_twoPow, BitVec.mul_comm, BitVec.ofInt_mul]
  rfl

/-- The target of a taken branch as an integer sum (R95). -/
theorem State.branchTarget_sext32 (s : State) (f : BitVec 16) :
    s.branchTarget (sext32 f) = BitVec.ofInt 32 (s.pc.toNat + 4 + 4 * f.toInt) := by
  rw [State.branchTarget, sext32_shiftLeft_two, s.pcPlus4_eq_ofNat, BitVec.ofInt_add, ← BitVec.ofInt_natCast]
  rfl

/-- Settles O23: `beq` commits the branch target exactly when its registers are equal. -/
theorem beqBranchesWhenEqual : Obligations.BeqBranchesWhenEqual := by
  intro s rs rt f
  refine ⟨fun c hc => decodeWith_immediate_word hc rfl rfl, _, exec_beq s rs rt _, ?_⟩
  rw [s.branchTarget_sext32, s.pcPlus4_eq_ofNat]
  exact s.commitNone_completesAt _

/-- Settles O24: `bne` commits the branch target exactly when its registers differ. -/
theorem bneBranchesWhenDifferent : Obligations.BneBranchesWhenDifferent := by
  intro s rs rt f
  refine ⟨fun c hc => decodeWith_immediate_word hc rfl rfl, _, exec_bne s rs rt _, ?_⟩
  rw [s.branchTarget_sext32, s.pcPlus4_eq_ofNat]
  exact s.commitNone_completesAt _

/-! ### The word of a jump (R66, R67) -/

theorem jumpField_eq_ofNat (f : BitVec 26) : jumpField f = BitVec.ofNat 32 (f.toNat * 4) := by
  rw [← jumpField_toNat, BitVec.ofNat_toNat, BitVec.setWidth_eq]

/-- The field that was shifted is the one that enters the word. -/
theorem extract_jumpField (f : BitVec 26) : extract (jumpField f) 27 2 = f := by
  have := f.isLt
  apply BitVec.eq_of_toNat_eq
  rw [extract_toNat, jumpField_toNat]
  omega

/-- The written-out word of a Jump instruction decodes to it: its target, a shifted field, is all that its
well-formedness asks about. -/
theorem decodeWith_jump_word {c : Codes} (hc : c.Admissible) {i : Instr} {op : Code} {f : BitVec 26}
    (henc : encodeWith c i = encJ op (jumpField f)) (hwf : i.wellFormed = decide (ShiftedField26 (jumpField f))) :
    decodeWith c (op ++ f) = .instr i := by
  have hword : op ++ f = encJ op (jumpField f) := by
    rw [encJ, extract_jumpField]
  rw [hword, ← henc]
  exact decodeOfEncodeIsIdentity c i hc (hwf.trans (decide_eq_true (jumpField_shiftedField26 f)))

/-- Settles O25: `j` commits its target, which is the decoded field times four. -/
theorem jJumpsToShiftedField : Obligations.JJumpsToShiftedField := by
  intro s a
  rw [← jumpField_eq_ofNat]
  exact ⟨fun c hc => decodeWith_jump_word hc rfl rfl, _, rfl, s.commitNone_completesAt _⟩

/-! ### The link (R143) -/

/-- The link register is written whatever the parameters: it is not register 0 (R23, R24). -/
theorem State.not_isZeroReg_linkReg (s : State) : ¬ s.IsZeroReg linkReg :=
  fun h => absurd h.2 (by decide)

/-- A commit to the link register always writes and reports it, and no other register. -/
theorem State.commitReg_linkReg (s : State) (v n : Word) :
    (s.commitReg linkReg v n).reg linkReg = v ∧
    (∀ r, r ≠ linkReg → (s.commitReg linkReg v n).reg r = s.reg r) ∧
    (s.commitReg linkReg v n).lastChanged = some linkReg := by
  have h := s.commitReg_writesRegister linkReg v n
  rwa [WritesRegister, if_neg s.not_isZeroReg_linkReg] at h

/-- Settles O26: `jal` commits `pc + 4` to the link register and goes to the decoded field times four. -/
theorem jalLinksPcPlusFour : Obligations.JalLinksPcPlusFour := by
  intro s a
  rw [← jumpField_eq_ofNat, ← s.pcPlus4_eq_ofNat]
  obtain ⟨hlink, hother, hreport⟩ := s.commitReg_linkReg s.pcPlus4 (jumpField a)
  exact ⟨fun c hc => decodeWith_jump_word hc rfl rfl, _, rfl, hlink, hother, hreport, s.commitReg_pc ..,
    fun _ => s.commitReg_memWord .., s.commitReg_runState .., s.commitReg_haltReq .., s.commitReg_cfg ..⟩

/-! ### Register jumps and the return (R144, R145) -/

/-- Settles O27: `jr` commits no register and goes to the word its source holds. -/
theorem jrCopiesRegisterToPc : Obligations.JrCopiesRegisterToPc := by
  intro s rs rt rd a
  exact ⟨fun c hc => decodeOfEncodeIsIdentity c (.jr rs rt rd a) hc rfl, _, rfl, s.commitNone_completesAt _⟩

/-- Settles O28: the pc after the return is the word in the link register, where the call put `pc + 4`. -/
theorem jrAfterJalReturnsToNextWord : Obligations.JrAfterJalReturnsToNextWord := by
  intro s u target rt rd a t hcall hkept
  cases hcall
  obtain ⟨-, v, hret, -, hpc, -, -⟩ := jrCopiesRegisterToPc u 31 rt rd a
  obtain ⟨hlink, -, -⟩ := s.commitReg_linkReg s.pcPlus4 target
  exact ⟨v, hret, hpc.trans (hkept.trans hlink)⟩

end Sys2Proof.Machine
end

section
/-! SUPPORT. The statements about load and store (44_load_store.md), and the rules they rest on: an aligned address inside
the array passes the checks of an access, and the memory that a store commits differs from the old one in one word. -/

namespace Sys2Proof.Machine

/-! ### The access that passes its checks (R44, R45) -/

/-- An aligned address inside the array raises nothing (R46, R47). -/
theorem accessFault_of_inside {c : Config} {a : Word} (hal : a.toNat % 4 = 0) (hlo : c.textBase.toNat ≤ a.toNat)
    (hhi : a.toNat < c.textBase.toNat + 4 * c.nWords) : accessFault c a = none := by
  have hin : inRange c a = true := (inRangeIsTheArrayInterval c a).2 ⟨hlo, hhi⟩
  simp [accessFault, (aligned_iff a).2 hal, hin]

/-- Every word of the array after a write at index `k` (R45). -/
theorem State.setMem_write_memWord {s : State} (hsorted : Memory.Sorted s.mem) (k : Nat) (v : Word) (i : Nat) :
    (s.setMem (Memory.write s.cfg.memFill s.mem k v)).memWord i = if i = k then v else s.memWord i :=
  Memory.read_write hsorted k v i

/-! ### The effective address, the load and the store (R150 to R152) -/

/-- Settles O31: the effective address is the sum of the base register and the sign-extended field, which wraps. -/
theorem effectiveAddressIsBasePlusSignedOffset : Obligations.EffectiveAddressIsBasePlusSignedOffset :=
  fun s rs f => add_sext32_eq_ofInt (s.reg rs) f

/-- Settles O29: the access passes its checks, so `lw` commits the word at the index of its address. -/
theorem lwLoadsTheWordAtEffectiveAddress : Obligations.LwLoadsTheWordAtEffectiveAddress := by
  intro s rs rt f
  refine ⟨fun c hc => decodeWith_immediate_word hc rfl rfl, ?_⟩
  intro hram ea hal hlo hhi
  have hload : s.loadWord ea = .ok (s.memWord (index s.cfg ea)) :=
    State.loadWord_of_no_fault (accessFault_of_inside hal hlo hhi)
  exact ⟨_, exec_lw_of_loadWord_ok hram hload, s.commitReg_completesWriting rt _⟩

/-- Settles O30: the access passes its checks, so `sw` commits no register and the memory written at the index of its
address. -/
theorem swStoresTheWordAtEffectiveAddress : Obligations.SwStoresTheWordAtEffectiveAddress := by
  intro s rs rt f
  refine ⟨fun c hc => decodeWith_immediate_word hc rfl rfl, ?_⟩
  intro hram hwf ea hal hlo hhi
  have hstore : s.storeWord ea (s.reg rt) = .ok (Memory.write s.cfg.memFill s.mem (index s.cfg ea) (s.reg rt)) :=
    State.storeWord_of_no_fault (accessFault_of_inside hal hlo hhi)
  have hmem := State.setMem_write_memWord (s := s.commitNone s.pcPlus4) hwf.1 (index s.cfg ea) (s.reg rt)
  obtain ⟨hregs, hpc, -, hcontrol⟩ := s.commitNone_completesAt s.pcPlus4
  exact ⟨_, exec_sw_of_storeWord_ok hram hstore, (hmem _).trans (if_pos rfl),
    fun i hi => (hmem i).trans (if_neg hi), hregs, hpc.trans s.pcPlus4_eq_ofNat, hcontrol⟩

end Sys2Proof.Machine
end

section
/-! SUPPORT. The statements about the exceptions (60_exceptions.md), and the rules they rest on: which of the two safe
run states a halt and a commit reach, and what the first value of the halt input says. -/

namespace Sys2Proof.Machine

/-! ### Safe states (R160) -/

/-- Of all halts the requested one alone is safe. -/
theorem State.halt_safe_iff (s : State) (r : HaltReason) : (s.halt r).Safe ↔ r = .userRequested := by
  simp [State.Safe]

/-- A commit of the tables leaves the run state alone (R104). -/
theorem Datapath.commit_safe_of_running {s : State} (i : Instr) (hrun : s.runState = .running) : (commit i s).Safe :=
  .inl hrun

/-- Settles O55: a step that fails a stage is the halt for that stage's reason, every other step is a commit, which is
safe. -/
theorem safetyIsLostOnlyByAFailedStage : Obligations.SafetyIsLostOnlyByAFailedStage := by
  intro s t h
  have hrun : s.runState = .running := (step_cases h).1
  obtain ⟨r, hfault, hstep⟩ | ⟨hnone, i, -, hstep⟩ := step_stage_cases hrun
  · cases hstep.symm.trans h
    rw [State.halt_safe_iff, hfault]
    simp
  · cases hstep.symm.trans h
    exact iff_of_true (Datapath.commit_safe_of_running i hrun) (.inl hnone)

/-! ### The halt request and the illegal word (R161, R168) -/

/-- The sampled request is the first value of the schedule, and an exhausted schedule requests nothing. -/
theorem State.haltReqNow_iff (s : State) : s.haltReqNow = true ↔ s.haltReq.head? = some true := by
  unfold State.haltReqNow
  cases s.haltReq with
  | nil => simp
  | cons b _ => simp

/-- Settles O40: the request is sampled before anything is fetched. -/
theorem haltRequestStopsBeforeFetch : Obligations.HaltRequestStopsBeforeFetch :=
  fun s hrun hq => step_eq_of_haltReqNow hrun (s.haltReqNow_iff.2 hq)

/-- Settles O41: the access of the fetch passes its checks, so the fetch answers with the decoder's rejection. -/
theorem illegalWordHaltsWithoutMutation : Obligations.IllegalWordHaltsWithoutMutation := by
  intro s hrun hq hal hin hd
  have hchecks : accessFault s.cfg s.pc = none := by
    simp [accessFault, hal, hin]
  have hfetch : s.fetchDecode = .error .illegalInstruction :=
    State.fetchDecode_of_illegal (State.loadWord_of_no_fault hchecks) hd
  exact step_eq_of_fetchDecode_error hrun hq hfetch

/-! ### The model's own fields (R168, R8) -/

/-- Settles O54: the step takes the value before it halts or executes, and neither touches the two fields after that. -/
theorem stepTakesOneInputAndKeepsParameters : Obligations.StepTakesOneInputAndKeepsParameters := by
  intro s t h
  obtain ⟨r, rfl⟩ | ⟨i, -, hexec⟩ := step_halts_or_execs h
  · exact ⟨rfl, rfl⟩
  · exact exec_haltReq_cfg hexec

end Sys2Proof.Machine
end

section
/-! SUPPORT. The statements about reset and hazards (70_reset_and_hazards.md), and the rules they rest on: a run of one
step more, the step over a zero word, and how far a run over zero words has come. -/

namespace Sys2Proof.Machine

/-! ### The load (R190, R192, R195) -/

/-- Settles O57: the array is canonical whether the program fits or not, the registers hold their reset values and no
register is reported. -/
theorem loadMeetsTheInvariant : Obligations.LoadMeetsTheInvariant := fun c p q hc =>
  { cfg_wf := hc
    mem_wf := State.load_mem_wf c p q
    zero_unwritten := fun _ => rfl
    zero_unreported := fun _ => nofun }

/-! ### A run of one step more -/

/-- A run whose first step goes to `t` is the run from `t`. -/
theorem run_succ_of_step {k : Nat} {s t : State} (h : step s = .next t) :
    Host.Core.run Sys2Proof.core (k + 1) s = Host.Core.run Sys2Proof.core k t := by
  have hcore : Sys2Proof.core.step s = .next t := h
  simp only [Host.Core.run, hcore]

/-- A run that came to `t` goes on with the step at `t`. -/
theorem run_succ_eq_step {k : Nat} {s t : State} (h : Host.Core.run Sys2Proof.core k s = .next t) :
    Host.Core.run Sys2Proof.core (k + 1) s = step t := by
  induction k generalizing s with
  | zero =>
    cases h
    simp only [Host.Core.run]
    split
    all_goals
      next hstep => exact hstep.symm
  | succ k ih =>
    simp only [Host.Core.run] at h
    split at h
    next u hstep => exact (run_succ_of_step hstep).trans (ih h)
    next => cases h
    next => cases h

/-! ### How far a run over zero words has come -/

/-- `t` is `s` with the pc `k` words further and `k` values of the halt input taken; only what register `last_changed`
reports is left open. -/
structure AdvancedBy (k : Nat) (s t : State) : Prop where
  run_state : t.runState = s.runState
  pc : t.pc = s.pc + BitVec.ofNat 32 (4 * k)
  reg : ∀ r, t.reg r = s.reg r
  mem : SameMemory s t
  halt_req : t.haltReq = s.haltReq.drop k
  cfg : t.cfg = s.cfg

theorem AdvancedBy.refl (s : State) : AdvancedBy 0 s s :=
  ⟨rfl, (BitVec.add_zero _).symm, fun _ => rfl, fun _ => rfl, rfl, rfl⟩

theorem AdvancedBy.trans {j k : Nat} {s t u : State} (ht : AdvancedBy j s t) (hu : AdvancedBy k t u) :
    AdvancedBy (j + k) s u where
  run_state := hu.run_state.trans ht.run_state
  pc := by rw [hu.pc, ht.pc, BitVec.add_assoc, ← BitVec.ofNat_add, ← Nat.mul_add]
  reg r := (hu.reg r).trans (ht.reg r)
  mem i := (hu.mem i).trans (ht.mem i)
  halt_req := by rw [hu.halt_req, ht.halt_req, List.drop_drop]
  cfg := hu.cfg.trans ht.cfg

/-! ### The step over a zero word (R79, R194) -/

/-- With `FN_SLL = 0` the zero word is `sll $0,$0,0` (R79, D2). -/
theorem decodeWith_zero {c : Codes} (hc : c.Admissible) (hfn : c.fnSll = 0) :
    decodeWith c 0 = .instr (.sll 0 0 0 0) := by
  have henc : encodeWith c (.sll 0 0 0 0) = 0 := by
    rw [encodeWith, hfn]
    decide
  rw [← henc]
  exact decodeOfEncodeIsIdentity c _ hc rfl

theorem State.haltReqNow_of_all_false {s : State} (h : ∀ b ∈ s.haltReq, b = false) : s.haltReqNow = false := by
  rw [Bool.eq_false_iff, Ne, State.haltReqNow_iff]
  exact fun hhead => nomatch h true (List.mem_of_head? hhead)

/-- The step that fetches a zero word only moves on to the next word. -/
theorem step_advances_of_zero_word {s : State} (hc : s.cfg.codes.Admissible) (hfn : s.cfg.codes.fnSll = 0)
    (hrun : s.runState = .running) (hq : s.haltReqNow = false) (hal : s.pc.toNat % 4 = 0)
    (hlo : s.cfg.textBase.toNat ≤ s.pc.toNat) (hhi : s.pc.toNat < s.cfg.textBase.toNat + 4 * s.cfg.nWords)
    (hword : s.memWord (index s.cfg s.pc) = 0) : ∃ t, step s = .next t ∧ AdvancedBy 1 s t := by
  have hd : decodeWith s.cfg.codes (s.memWord (index s.cfg s.pc)) = .instr (.sll 0 0 0 0) := by
    rw [hword]
    exact decodeWith_zero hc hfn
  have hstep : step s = exec (.sll 0 0 0 0) s.sampleHaltReq :=
    stepRunsTheDecodedInstruction s _ hrun hq hal hlo hhi hd
  obtain ⟨t, hexec, hreg, -, hpc, hmem, hrunState, hhaltReq, hcfg⟩ :=
    zeroWordIsSllAndOnesWordIsIllegal.2.2 s.sampleHaltReq
  refine ⟨t, hstep.trans hexec, hrunState, ?_, hreg, hmem, ?_, hcfg⟩
  · exact hpc.trans s.pcPlus4_eq_ofNat.symm
  · rw [hhaltReq, State.sampleHaltReq_haltReq, List.drop_one]

/-! ### Zero words to the end of the array (R194, R196) -/

/-- A running machine with `n` words to go, all zero, from its pc to the end of the array, and no halt request to come. -/
structure State.ZeroWordsToEnd (s : State) (n : Nat) : Prop where
  cfg_wf : s.cfg.WF
  fn_sll : s.cfg.codes.fnSll = 0
  running : s.runState = .running
  no_request : ∀ b ∈ s.haltReq, b = false
  aligned : s.pc.toNat % 4 = 0
  base_le : s.cfg.textBase.toNat ≤ s.pc.toNat
  ends : s.pc.toNat + 4 * n = s.cfg.textBase.toNat + 4 * s.cfg.nWords
  zero : ∀ k, index s.cfg s.pc ≤ k → k < s.cfg.nWords → s.memWord k = 0

section
variable {s t : State} {n k : Nat} (hs : s.ZeroWordsToEnd n)
include hs

theorem State.ZeroWordsToEnd.haltReqNow_of_advanced (ht : AdvancedBy k s t) : t.haltReqNow = false := by
  apply State.haltReqNow_of_all_false
  rw [ht.halt_req]
  exact fun b hb => hs.no_request b (List.mem_of_mem_drop hb)

/-- Before the end of the array the next step is one over a zero word; the pc has not wrapped. -/
theorem State.ZeroWordsToEnd.step_advances (ht : AdvancedBy k s t) (hk : k < n) :
    ∃ u, step t = .next u ∧ AdvancedBy (k + 1) s u := by
  obtain ⟨-, hfit, hcodes⟩ := hs.cfg_wf
  have hends := hs.ends
  have hlo := hs.base_le
  have hal := hs.aligned
  have hpc : t.pc.toNat = s.pc.toNat + 4 * k := by
    rw [ht.pc, BitVec.toNat_add, BitVec.toNat_ofNat]
    omega
  have hidx : index t.cfg t.pc = index s.cfg s.pc + k := by
    rw [index, index, ht.cfg, hpc]
    omega
  have hword : t.memWord (index t.cfg t.pc) = 0 := by
    rw [hidx, ht.mem]
    refine hs.zero _ (Nat.le_add_right ..) ?_
    rw [index]
    omega
  obtain ⟨u, hstep, hu⟩ := step_advances_of_zero_word (s := t) (by rwa [ht.cfg]) (by rw [ht.cfg, hs.fn_sll])
    (ht.run_state.trans hs.running) (hs.haltReqNow_of_advanced ht) (by omega) (by rw [ht.cfg]; omega)
    (by rw [ht.cfg]; omega) hword
  exact ⟨u, hstep, ht.trans hu⟩

/-- Up to the end of the array a run only advances. -/
theorem State.ZeroWordsToEnd.run_advances (hk : k ≤ n) :
    ∃ t, Host.Core.run Sys2Proof.core k s = .next t ∧ AdvancedBy k s t := by
  induction k with
  | zero => exact ⟨s, rfl, AdvancedBy.refl s⟩
  | succ k ih =>
    obtain ⟨t, hrun, ht⟩ := ih (by omega)
    obtain ⟨u, hstep, hu⟩ := hs.step_advances ht hk
    exact ⟨u, (run_succ_eq_step hrun).trans hstep, hu⟩

/-- At the end of the array the pc is the address one past it, or 0 when that is 2^32; either is outside the array unless
the array fills all 4 GiB (log 28). -/
theorem State.ZeroWordsToEnd.step_halts (hsmall : s.cfg.nWords < 2 ^ 30) (ht : AdvancedBy n s t) :
    step t = .next { t with runState := .halted .memoryOutOfRange, haltReq := t.haltReq.tail } := by
  obtain ⟨-, hfit, -⟩ := hs.cfg_wf
  have hends := hs.ends
  have hal := hs.aligned
  have hpc : t.pc.toNat = (s.cfg.textBase.toNat + 4 * s.cfg.nWords) % 2 ^ 32 := by
    rw [ht.pc, BitVec.toNat_add, BitVec.toNat_ofNat, ← hends]
    omega
  have hout : t.pc.toNat < t.cfg.textBase.toNat ∨ t.cfg.textBase.toNat + 4 * t.cfg.nWords ≤ t.pc.toNat := by
    rw [ht.cfg, hpc]
    omega
  exact outOfRangeAccessHalts.1 t (ht.run_state.trans hs.running) (hs.haltReqNow_of_advanced ht) (by omega) hout

end

/-- Settles O60: `n` steps over zero words advance to the end of the array, where the fetch is out of range. -/
theorem runningOffTheEndHalts : Obligations.RunningOffTheEndHalts := by
  intro s n hwf hfn hsmall hrun hreq hal hlo hends hzero
  have hs : s.ZeroWordsToEnd n := ⟨hwf, hfn, hrun, hreq, hal, hlo, hends, hzero⟩
  obtain ⟨t, hsteps, ht⟩ := hs.run_advances (Nat.le_refl n)
  have hpc : t.pc = BitVec.ofNat 32 (s.cfg.textBase.toNat + 4 * s.cfg.nWords) := by
    rw [ht.pc, ← hends, BitVec.ofNat_add, BitVec.ofNat_toNat, BitVec.setWidth_eq]
  exact ⟨t, hsteps, ht.run_state.trans hrun, hpc, ht.reg, ht.mem,
    _, (run_succ_eq_step hsteps).trans (hs.step_halts hsmall ht), rfl⟩

end Sys2Proof.Machine
end

section
/-! SUPPORT. The statement about the words written out from the encodings (95_test_vectors.md V-dec): a legal one is the
encoding of its instruction, and an illegal one is outside the charts. -/

namespace Sys2Proof.Machine

/-- A word is read back as the instruction it is the encoding of. -/
theorem decode_of_encode_eq {w : Word} {i : Instr} (hwf : i.WellFormed) (hw : encode i = w) : decode w = .instr i :=
  hw ▸ decodeOfEncodeIsIdentity Codes.mips32 i (by decide) hwf

/-- Settles O8: the ten legal words are encodings of well-formed instructions. Of the two others one has the opcode 0x21,
the function code of `addu`, and one the function code 0x2B, the opcode of `sw`; neither is in its chart. -/
theorem writtenOutWordsDecode : Obligations.WrittenOutWordsDecode := by
  refine ⟨?addu, ?srl, ?jr, ?addiu, ?lui, ?beq, ?lw, ?sw, ?j, ?jal, ?opcode, ?funct⟩
  case addu | srl | jr | addiu | lui | beq | lw | sw | j | jal => exact decode_of_encode_eq (by decide) (by decide)
  case opcode => exact (illegalWordsAreThoseOfTheCharts _).2 (.inr (by decide))
  case funct => exact (illegalWordsAreThoseOfTheCharts _).2 (.inl (by decide))

end Sys2Proof.Machine
end
